-- ==== Sys2Proof/Word.lean ====
section
/-! DEFINITION. The word type of NEC_IR_CORE: an operation or operand word is 32 bits (spec 30_encoding.md R70, R77,
R78), always read whole (20_memory.md R53); a serialised byte is 8 bits (R52). -/

namespace Sys2Proof

abbrev Word := BitVec 32
abbrev Byte := BitVec 8

end Sys2Proof
end

