-- ==== Sys2Proof/Config.lean ====
section
/-! DEFINITION. What is fixed for a run of NEC_IR_CORE (spec 00_scope.md section 3) and the free values of what the
spec leaves unspecified (log 7). -/

namespace Sys2Proof.Config

/-- FRAME_SYMBOLS (R11). -/
abbrev frameSymbols : Nat := 34

/-- REPEAT_SYMBOLS (R11). -/
abbrev repeatSymbols : Nat := 2

/-- ADDR_BITS (R11). -/
abbrev addrBits : Nat := 16

/-- CMD_BITS (R11). -/
abbrev cmdBits : Nat := 16

/-- Nominal durations of one timing entry, in microseconds (R9). -/
structure Timing where
  nh : Nat
  nl : Nat
  deriving DecidableEq, Repr

/-- The Timing Spec table NOM (R9). -/
structure NomTable where
  lead : Timing
  zero : Timing
  one  : Timing
  rep  : Timing
  deriving DecidableEq, Repr

/-- The parameters a model takes as an argument (R8, R9, R10, R12, R13, R35). -/
structure Params where
  margin     : Nat
  nom        : NomTable
  maxSymbols : Nat
  durW       : Nat
  oneShot    : Bool
  deriving DecidableEq, Repr

/-- The source's table (R9). -/
def sourceTable : NomTable :=
  { lead := ⟨9000, 4500⟩, zero := ⟨560, 560⟩, one := ⟨560, 1690⟩, rep := ⟨9000, 2250⟩ }

/-- The values this hardware takes (R8, R9, R10, R12, R13). -/
def defaults : Params :=
  { margin := 200, nom := sourceTable, maxSymbols := 64, durW := 16, oneShot := true }

/-- FREE VALUE (log 7): the duration_high of an unspecified buffer slot, per draw and slot (R27, R150, R171). -/
opaque freeHigh (draw slot : Nat) : Nat

/-- FREE VALUE (log 7): the duration_low of an unspecified buffer slot, per draw and slot (R27, R150, R171). -/
opaque freeLow (draw slot : Nat) : Nat

/-- FREE VALUE (log 7): the count an unspecified work buffer holds, per draw (R27, R143, R150). -/
opaque freeCount (draw : Nat) : BitVec 7

end Sys2Proof.Config
end

