-- ==== Sys2Proof/Syntax.lean ====
section
/-! DEFINITION. The operations of NEC_IR_CORE as syntax: one constructor per row of spec/opcode_table.json
(30_encoding.md R71), and the value types their operands are made of. -/

namespace Sys2Proof

/-- A Symbol: duration_high and duration_low in microseconds, unsigned integers (R32, R12). That they are below 2^DUR_W is
a condition on the operands (symbolFits), since DUR_W is a parameter of the run. -/
structure Symbol where
  dh : Nat
  dl : Nat
  deriving DecidableEq, Repr

/-- The timing entries, in the table's row order (R9, R72). -/
inductive TimingEntry where
  | lead
  | zero
  | one
  | rep
  deriving DecidableEq, Repr

/-- The Pulse Capture Source's answer to arm or disable: the draw F (R74). -/
inductive Answer where
  | success
  | failure
  deriving DecidableEq, Repr

/-- The four agents (R7). -/
inductive Agent where
  | host
  | capture
  | worker
  | sink
  deriving DecidableEq, Repr

/-- The operations (R71). A batch operand is the list of its symbols in capture order; COUNT is its length (R73). -/
inductive Instr where
  /-- MATCH (R102). -/
  | matchEntry (e : TimingEntry) (x : Symbol)
  /-- CLASSIFY (R104). -/
  | classify (x : Symbol)
  /-- DECODE_FRAME (R125). -/
  | decodeFrame (b : List Symbol)
  /-- DECODE_REPEAT (R127). -/
  | decodeRepeat (b : List Symbol)
  /-- CONSTRUCT (R141). -/
  | construct (f : Answer) (c : Word)
  /-- PROCESS (R143). -/
  | process
  /-- ARM (R147). -/
  | arm (f : Answer)
  /-- DESTROY (R150). -/
  | destroy (f : Answer)
  /-- NOTIFY (R171). -/
  | notify (b : List Symbol)
  /-- TAKE (R173). -/
  | take
  deriving DecidableEq, Repr

end Sys2Proof
end

