-- ==== Sys2Proof/WellFormed.lean ====
section
/-! DEFINITION. Which instructions the encoding admits: a batch has a COUNT the encoding admits, a 7-bit field
(30_encoding.md R70) and at most MAX_SYMBOLS (R73), and every duration is one of DUR_W bits (00_scope.md R12). Every
SEL, CFG word and F is legal (R72, R78, R74). -/

namespace Sys2Proof

/-- A batch of n symbols has a COUNT the encoding admits (R70, R73). -/
def batchFits (maxSymbols n : Nat) : Bool :=
  decide (n ≤ maxSymbols) && decide (n < 128)

/-- Both durations are in [0, 2^DUR_W - 1] (R12, R32). -/
def symbolFits (durW : Nat) (x : Symbol) : Bool :=
  decide (x.dh < 2 ^ durW) && decide (x.dl < 2 ^ durW)

/-- A batch operand that the encoding admits, with its durations (R12, R70, R73). -/
def batchOk (p : Config.Params) (b : List Symbol) : Bool :=
  batchFits p.maxSymbols b.length && b.all (symbolFits p.durW)

def wellFormed (p : Config.Params) (i : Instr) : Bool :=
  match i with
  | .matchEntry _ x => symbolFits p.durW x
  | .classify x => symbolFits p.durW x
  | .decodeFrame b => batchOk p b
  | .decodeRepeat b => batchOk p b
  | .construct _ _ => true
  | .process => true
  | .arm _ => true
  | .destroy _ => true
  | .notify b => batchOk p b
  | .take => true

end Sys2Proof
end

