-- ==== Sys2Proof/Decode.lean ====
section
/-! DEFINITION. The binary form (spec 30_encoding.md): the decoder from words, total and rejecting by name (R84), then
the encoder written from the same layout (R70, R71, R77, R78, R80), and the byte order of a serialised word
(20_memory.md R52). -/

namespace Sys2Proof

/-- Why a word list is not an operation: the three refusals of R84, operand words still missing (log 10), and a nonzero
bit of a SYM operand above its 2 * DUR_W bits, of which there is none at DUR_W = 16 (log 4). -/
inductive DecodeError where
  | illegalOp
  | reservedBits
  | countTooLarge
  | truncated
  | spareBits
  deriving DecidableEq, Repr

/-- The rows of the opcode map (R71). -/
inductive Op where
  | matchEntry
  | classify
  | decodeFrame
  | decodeRepeat
  | construct
  | process
  | arm
  | destroy
  | notify
  | take
  deriving DecidableEq, Repr

/-! ### Fields of an operation word (R70) -/

def opField (w : Word) : BitVec 4 := w.extractLsb' 0 4
def selField (w : Word) : BitVec 2 := w.extractLsb' 4 2
def reservedLow (w : Word) : BitVec 2 := w.extractLsb' 6 2
def countField (w : Word) : BitVec 7 := w.extractLsb' 8 7
def answerField (w : Word) : BitVec 1 := w.extractLsb' 15 1
def reservedHigh (w : Word) : BitVec 16 := w.extractLsb' 16 16

/-! ### The opcode map (R71, R76) -/

def opOfCode (c : BitVec 4) : Option Op :=
  match c.toNat with
  | 0x1 => some .matchEntry
  | 0x2 => some .classify
  | 0x3 => some .decodeFrame
  | 0x4 => some .decodeRepeat
  | 0x5 => some .construct
  | 0x6 => some .process
  | 0x7 => some .arm
  | 0x8 => some .destroy
  | 0x9 => some .notify
  | 0xA => some .take
  | _ => none

def codeOfOp : Op → BitVec 4
  | .matchEntry => 0x1
  | .classify => 0x2
  | .decodeFrame => 0x3
  | .decodeRepeat => 0x4
  | .construct => 0x5
  | .process => 0x6
  | .arm => 0x7
  | .destroy => 0x8
  | .notify => 0x9
  | .take => 0xA

/-- The agent column of R71. -/
def agentOfOp : Op → Agent
  | .matchEntry => .host
  | .classify => .host
  | .decodeFrame => .host
  | .decodeRepeat => .host
  | .construct => .host
  | .process => .worker
  | .arm => .worker
  | .destroy => .host
  | .notify => .capture
  | .take => .worker

def opOf : Instr → Op
  | .matchEntry _ _ => .matchEntry
  | .classify _ => .classify
  | .decodeFrame _ => .decodeFrame
  | .decodeRepeat _ => .decodeRepeat
  | .construct _ _ => .construct
  | .process => .process
  | .arm _ => .arm
  | .destroy _ => .destroy
  | .notify _ => .notify
  | .take => .take

/-- The agent whose step an operation is (R71, R89). -/
def agentOf (i : Instr) : Agent := agentOfOp (opOf i)

/-- Only MATCH uses SEL (R72, R75). -/
def usesSel (op : Op) : Bool := decide (op = .matchEntry)

/-- The operations with a batch operand use COUNT (R73, R75). -/
def usesCount (op : Op) : Bool :=
  decide (op = .decodeFrame) || decide (op = .decodeRepeat) || decide (op = .notify)

/-- The operations that call the peripheral use F (R74, R75). -/
def usesAnswer (op : Op) : Bool :=
  decide (op = .construct) || decide (op = .arm) || decide (op = .destroy)

/-! ### Operand words (R72, R74, R77, R12) -/

def entryOfSel (v : BitVec 2) : TimingEntry :=
  match v.toNat with
  | 0 => .lead
  | 1 => .zero
  | 2 => .one
  | _ => .rep

def selOfEntry : TimingEntry → BitVec 2
  | .lead => 0
  | .zero => 1
  | .one => 2
  | .rep => 3

def answerOfBit (v : BitVec 1) : Answer := if v = 0 then .success else .failure

def bitOfAnswer : Answer → BitVec 1
  | .success => 0
  | .failure => 1

/-- How many 32-bit words carry one SYM of 2 * DUR_W bits: one at DUR_W = 16 (R77). DESIGN CHOICE (log 4): a wider SYM
word is carried in 32-bit words, the lowest first. -/
def wordsPerSym (durW : Nat) : Nat := (2 * durW + 31) / 32

/-- The number whose 32-bit words are ws, the lowest first. -/
def natOfWords : List Word → Nat
  | [] => 0
  | w :: ws => w.toNat + 2 ^ 32 * natOfWords ws

/-- The k lowest 32-bit words of n, the lowest first. -/
def wordsOfNat : Nat → Nat → List Word
  | 0, _ => []
  | k + 1, n => BitVec.ofNat 32 n :: wordsOfNat k (n / 2 ^ 32)

/-- SYM = {DL, DH}, each of DUR_W bits (R77); none where a bit above them is nonzero (log 4). -/
def symOfWords (durW : Nat) (ws : List Word) : Option Symbol :=
  if natOfWords ws < 2 ^ (2 * durW) then some ⟨natOfWords ws % 2 ^ durW, natOfWords ws / 2 ^ durW⟩ else none

def wordsOfSym (durW : Nat) (x : Symbol) : List Word :=
  wordsOfNat (wordsPerSym durW) (x.dh + 2 ^ durW * x.dl)

/-- The n symbols whose SYM words follow each other in ws (R80). -/
def symsOfWords (durW : Nat) : Nat → List Word → Option (List Symbol)
  | 0, _ => some []
  | n + 1, ws =>
    match symOfWords durW (ws.take (wordsPerSym durW)), symsOfWords durW n (ws.drop (wordsPerSym durW)) with
    | some x, some b => some (x :: b)
    | _, _ => none

/-- The SYM words of a batch, symbol 0 first (R80). -/
def wordsOfSyms (durW : Nat) (b : List Symbol) : List Word := b.flatMap (wordsOfSym durW)

/-! ### Decoding (R84) -/

/-- Is a reserved bit, or a field the operation does not use, nonzero (R75)? -/
def reservedNonzero (op : Op) (w : Word) : Bool :=
  decide (reservedLow w ≠ 0) || decide (reservedHigh w ≠ 0)
    || (!usesSel op && decide (selField w ≠ 0))
    || (!usesCount op && decide (countField w ≠ 0))
    || (!usesAnswer op && decide (answerField w ≠ 0))

/-- The checks of R84, in its order. -/
def checkHeader (maxSymbols : Nat) (w : Word) : Except DecodeError Op :=
  match opOfCode (opField w) with
  | none => .error .illegalOp
  | some op =>
    if reservedNonzero op w then .error .reservedBits
    else if maxSymbols < (countField w).toNat then .error .countTooLarge
    else .ok op

/-- k of R80: how many operand words follow a legal operation word. -/
def operandWords (durW : Nat) (op : Op) (w : Word) : Nat :=
  match op with
  | .matchEntry => wordsPerSym durW
  | .classify => wordsPerSym durW
  | .decodeFrame => (countField w).toNat * wordsPerSym durW
  | .decodeRepeat => (countField w).toNat * wordsPerSym durW
  | .construct => 1
  | .process => 0
  | .arm => 0
  | .destroy => 0
  | .notify => (countField w).toNat * wordsPerSym durW
  | .take => 0

/-- The first n words of a list and the rest, or none where there are fewer. -/
def readWords : Nat → List Word → Option (List Word × List Word)
  | 0, ws => some ([], ws)
  | _ + 1, [] => none
  | n + 1, w :: ws => (readWords n ws).map fun r => (w :: r.1, r.2)

/-- The operation of a legal operation word w and its operand words xs, k of them (R80); none where xs do not carry
symbols of DUR_W bits. -/
def instrOf (durW : Nat) (op : Op) (w : Word) (xs : List Word) : Option Instr :=
  match op with
  | .matchEntry => (symOfWords durW xs).map (.matchEntry (entryOfSel (selField w)))
  | .classify => (symOfWords durW xs).map .classify
  | .decodeFrame => (symsOfWords durW (countField w).toNat xs).map .decodeFrame
  | .decodeRepeat => (symsOfWords durW (countField w).toNat xs).map .decodeRepeat
  | .construct => xs.head?.map (.construct (answerOfBit (answerField w)))
  | .process => some .process
  | .arm => some (.arm (answerOfBit (answerField w)))
  | .destroy => some (.destroy (answerOfBit (answerField w)))
  | .notify => (symsOfWords durW (countField w).toNat xs).map .notify
  | .take => some .take

/-- Total decoding of a word list: the operation it begins with and the words left (R84, R80). -/
def decode (p : Config.Params) (ws : List Word) : Except DecodeError (Instr × List Word) :=
  match ws with
  | [] => .error .truncated
  | w :: rest =>
    match checkHeader p.maxSymbols w with
    | .error e => .error e
    | .ok op =>
      match readWords (operandWords p.durW op w) rest with
      | none => .error .truncated
      | some r =>
        match instrOf p.durW op w r.1 with
        | none => .error .spareBits
        | some i => .ok (i, r.2)

/-! ### Encoding (R70, R71, R77, R78, R80) -/

/-- OPW = {16'b0, F, COUNT[6:0], 2'b0, SEL[1:0], OP[3:0]} (R70). -/
def opWord (op : Op) (sel : BitVec 2) (count : BitVec 7) (f : BitVec 1) : Word :=
  (0 : BitVec 16) ++ (f ++ (count ++ ((0 : BitVec 2) ++ (sel ++ codeOfOp op))))

/-- COUNT of a batch operand (R73). -/
def countOf (b : List Symbol) : BitVec 7 := BitVec.ofNat 7 b.length

/-- The operation word of an instruction (R70, R71). -/
def headerWord (i : Instr) : Word :=
  match i with
  | .matchEntry e _ => opWord .matchEntry (selOfEntry e) 0 0
  | .classify _ => opWord .classify 0 0 0
  | .decodeFrame b => opWord .decodeFrame 0 (countOf b) 0
  | .decodeRepeat b => opWord .decodeRepeat 0 (countOf b) 0
  | .construct f _ => opWord .construct 0 0 (bitOfAnswer f)
  | .process => opWord .process 0 0 0
  | .arm f => opWord .arm 0 0 (bitOfAnswer f)
  | .destroy f => opWord .destroy 0 0 (bitOfAnswer f)
  | .notify b => opWord .notify 0 (countOf b) 0
  | .take => opWord .take 0 0 0

/-- The operand words of an instruction, symbol 0 first (R80). -/
def operandsOf (durW : Nat) (i : Instr) : List Word :=
  match i with
  | .matchEntry _ x => wordsOfSym durW x
  | .classify x => wordsOfSym durW x
  | .decodeFrame b => wordsOfSyms durW b
  | .decodeRepeat b => wordsOfSyms durW b
  | .construct _ c => [c]
  | .process => []
  | .arm _ => []
  | .destroy _ => []
  | .notify b => wordsOfSyms durW b
  | .take => []

/-- The words of an instruction (R80). -/
def encode (durW : Nat) (i : Instr) : List Word := headerWord i :: operandsOf durW i

/-! ### Serialisation (20_memory.md R52): bits [7:0] in the first byte -/

/-- The k lowest bytes of v, low byte first. -/
def bytesOfNat (k v : Nat) : List Byte :=
  (List.range k).map fun j => BitVec.ofNat 8 (v / 2 ^ (8 * j))

/-- The number whose bytes are bs, low byte first. -/
def natOfBytes (bs : List Byte) : Nat :=
  bs.foldr (fun b acc => b.toNat + 256 * acc) 0

def bytesOfWord (w : Word) : List Byte := bytesOfNat 4 w.toNat

def wordOfBytes (bs : List Byte) : Word := BitVec.ofNat 32 (natOfBytes bs)

/-! ### The opcode table's numbering -/

/-- COUNT is 7 bits, so no operation is longer than this (R70, R80). -/
def longestOperation (durW : Nat) : Nat := 1 + 127 * wordsPerSym durW

/-- The words of an instruction whose bits are w numbered from bit 0 of its first word, every bit at nbits and above
zero: word k is bits 32k+31..32k. -/
def wordsOfTable (durW nbits w : Nat) : List Word :=
  (List.range (longestOperation durW)).map fun k => BitVec.ofNat 32 (w % 2 ^ nbits / 2 ^ (32 * k))

/-- The instruction the decoder reads from a row's bits, at the default parameters. -/
def decodeTableWord (nbits w : Nat) : Option Instr :=
  match decode Config.defaults (wordsOfTable Config.defaults.durW nbits w) with
  | .ok r => some r.1
  | .error _ => none

end Sys2Proof
end

