-- ==== Sys2Proof/Machine/State.lean ====
section
/-! DEFINITION. The state of NEC_IR_CORE as plain data: every register and buffer of spec 10_state.md, the observation
records EH and TR, the parameters of a run (log 3), and the model's own fields (logs 1, 7, 8). -/

namespace Sys2Proof.Machine

/-- LS, the loop state (R21). The codes 6 and 7 never occur, so they have no constructor. -/
inductive LoopState where
  | unbuilt
  | wait
  | haveBatch
  | rearmPending
  | stopped
  | faulted
  deriving DecidableEq, Repr

/-- The class of one symbol (R34). -/
inductive BitClass where
  | bit0
  | bit1
  | none
  deriving DecidableEq, Repr

/-- Why a batch does not decode (R33, R86). -/
inductive Reason where
  | invalidLeadingCode
  | invalidBit
  | unexpectedSymbolCount
  deriving DecidableEq, Repr

/-- A decoded frame (R33). -/
structure Frame where
  address  : BitVec 16
  command  : BitVec 16
  isRepeat : Bool
  deriving DecidableEq, Repr

/-- A Decode Outcome (R33). -/
inductive DecodeOutcome where
  | frame (f : Frame)
  | invalid (r : Reason)
  deriving DecidableEq, Repr

/-- The result of DECODE_REPEAT: the pair (true, 0) or (false, reason) (R86, R126). -/
inductive RepeatOutcome where
  | isRepeat
  | invalid (r : Reason)
  deriving DecidableEq, Repr

/-- What PROCESS did with a batch (R87). -/
inductive Disposition where
  | publishedFrame
  | publishedRepeat
  | dropInvalidLeading
  | dropInvalidBit
  | dropCount
  | dropRepeatNoPrior
  deriving DecidableEq, Repr

/-- The result of a query (R88). -/
inductive QueryResult where
  | matched (v : Bool)
  | bitClass (c : BitClass)
  | frameOutcome (o : DecodeOutcome)
  | repeatOutcome (o : RepeatOutcome)
  deriving DecidableEq, Repr

/-- One record of the trace TR (R31). -/
inductive TraceRecord where
  | disp (d : Disposition)
  | overwrite
  | query (v : QueryResult)
  deriving DecidableEq, Repr

/-- The event the Event Sink receives (R79, R149). -/
structure IrCommand where
  address  : BitVec 16
  command  : BitVec 16
  isRepeat : Bool
  deriving DecidableEq, Repr

/-- A batch buffer: a count, and a slot for every symbol index below MAX_SYMBOLS (R26, R27, R50). A batch operand has
exactly count slots. -/
structure Batch where
  count : BitVec 7
  sym   : List Symbol
  deriving DecidableEq, Repr

/-- RS, the relay slot (R26). -/
structure RelaySlot where
  full  : Bool
  batch : Batch
  deriving DecidableEq, Repr

/-- LF, the last-known frame (R28). -/
structure LastFrame where
  valid   : Bool
  address : BitVec 16
  command : BitVec 16
  deriving DecidableEq, Repr

/-- The peripheral failures, one FM bit each (R29, R203). -/
inductive PeripheralFault where
  | startup
  | rearm
  | teardown
  deriving DecidableEq, Repr

/-- A call the core makes to the Pulse Capture Source, with what it presents and the answer (R142, R151; log 8). -/
inductive PortCall where
  | arm (config : Word) (answer : Answer)
  | disable (answer : Answer)
  deriving DecidableEq, Repr

/-- The model's schedule (log 1): whose turn comes next, and the operation words each agent is about to issue. SINK
has no operation of its own, so whatever it issues is refused (R7, R89). -/
structure Schedule where
  turns   : List Agent
  host    : List Word
  capture : List Word
  worker  : List Word
  sink    : List Word
  deriving DecidableEq, Repr

/-- The state of the core (R20), then the run's parameters and the model's own fields. -/
structure State where
  /-- LS (R21). -/
  ls      : LoopState
  /-- PA (R22). -/
  pa      : Bool
  /-- H (R23). -/
  h       : Bool
  /-- CB (R24). -/
  cb      : Bool
  /-- CFG (R25). -/
  cfg     : Word
  /-- RS (R26). -/
  rs      : RelaySlot
  /-- WB (R27). -/
  wb      : Batch
  /-- LF (R28). -/
  lf      : LastFrame
  /-- FM (R29). -/
  fm      : BitVec 3
  /-- EH, oldest first (R30). -/
  eh      : List IrCommand
  /-- TR, oldest first (R31). -/
  tr      : List TraceRecord
  /-- The parameters of the run; no operation writes them (R35, log 3). -/
  params  : Config.Params
  /-- The calls made to the Pulse Capture Source, oldest first (log 8). -/
  portLog : List PortCall
  /-- How many free values have been drawn (log 7). -/
  draws   : Nat
  /-- The schedule (log 1). -/
  io      : Schedule
  deriving DecidableEq, Repr

/-- The registers whose value the spec leaves unspecified at times (R39). -/
inductive UnspecifiedField where
  | relayBatch
  | workBuffer
  | lastFrame
  | captureConfig
  deriving DecidableEq, Repr

/-- The model faults of the spec. Safe: the machine stops, and no rule of the spec makes such a read (R39, R51). -/
inductive Fault where
  /-- SymRead at an index that is not below the count; raised by symRead (R51). Safe. -/
  | outOfBatchRead
  /-- A read of a field while its value is unspecified; raised by readRelay, readWork, readLast, readCfg (R39). Safe. -/
  | unspecifiedRead (field : UnspecifiedField)
  deriving DecidableEq, Repr

/-- Why a use has no meaning (R16, R207). -/
inductive Refusal where
  /-- No meaning yet; raised by no arm of exec. Safe. -/
  | notModelled (mnemonic : String)
  /-- A reserved OP; raised by the fetch (R76). Safe: the spec refuses. -/
  | illegalOp
  /-- A nonzero reserved bit or unused field, or a bit of a SYM operand above its 2 * DUR_W bits (log 4); raised by the
  fetch (R75). Safe: the spec refuses. -/
  | reservedBits
  /-- COUNT over MAX_SYMBOLS; raised by the fetch, and by the meanings with a batch operand on a batch no word encodes
  (R73, log 11). Safe: the spec refuses. -/
  | countTooLarge
  /-- An operation issued by an agent that is not its own; raised by the fetch (R89). Safe: the spec refuses. -/
  | wrongAgent
  /-- CONSTRUCT outside UNBUILT, or DESTROY in UNBUILT or STOPPED; raised by their meanings (R140). Safe: the spec
  refuses. -/
  | lifecycle
  deriving DecidableEq, Repr

/-- The outcome of a step of this machine. -/
abbrev Result := Host.Outcome State Fault Refusal

/-- A buffer whose contents the spec leaves unspecified at reset. DESIGN CHOICE, unsafe (log 5): count 0 and every
slot (0, 0). Every read of it faults (R39, log 6). -/
def Batch.atReset : Batch :=
  { count := 0, sym := List.replicate Config.defaults.maxSymbols ⟨0, 0⟩ }

/-- Power-on reset (R230; the reset table of 10_state.md). The unspecified fields hold the values of log 5; the
schedule is empty (log 13). -/
def State.reset : State :=
  { ls := .unbuilt
    pa := false
    h := false
    cb := false
    cfg := 0
    rs := { full := false, batch := Batch.atReset }
    wb := Batch.atReset
    lf := { valid := false, address := 0, command := 0 }
    fm := 0
    eh := []
    tr := []
    params := Config.defaults
    portLog := []
    draws := 0
    io := { turns := [], host := [], capture := [], worker := [], sink := [] } }

end Sys2Proof.Machine
end

