-- ==== Sys2Proof/Machine/Operands.lean ====
section
/-! DEFINITION. The operand forms of the operations: a timing entry's nominal (30_encoding.md R72), a batch operand
(R73, R80), the fields of a CFG word (R78, 10_state.md R25). -/

namespace Sys2Proof.Machine

/-- NOM[e] (R9, R72). -/
def nominal (p : Config.Params) (e : TimingEntry) : Config.Timing :=
  match e with
  | .lead => p.nom.lead
  | .zero => p.nom.zero
  | .one => p.nom.one
  | .rep => p.nom.rep

/-- The batch a list of SYM operands forms: B.count = n and B.sym[k] the k-th SYM (R125, R127). -/
def operandBatch (b : List Symbol) : Batch := { count := countOf b, sym := b }

/-- Run k on a batch operand, or refuse one whose COUNT no operation word may hold (R73, log 11). -/
def withBatch (b : List Symbol) (s : State) (k : Batch → Result) : Result :=
  if batchFits s.params.maxSymbols b.length then k (operandBatch b) else .refused .countTooLarge

/-- CFG.MIN, signal_range_min (R25, R78). -/
def cfgMin (c : Word) : BitVec 16 := c.extractLsb' 0 16

/-- CFG.MAX, signal_range_max (R25, R78). -/
def cfgMax (c : Word) : BitVec 16 := c.extractLsb' 16 16

/-- The CFG word of a range (R78). -/
def cfgWord (lo hi : BitVec 16) : Word := hi ++ lo

end Sys2Proof.Machine
end

