-- ==== Sys2Proof/Machine/Flags.lean ====
section
/-! DEFINITION. The condition flags (10_state.md R37): the conditions under which each operation is enabled
(42_receive_loop.md R140), and the fault mask (R29). No operation sets a flag but as its rule lists. -/

namespace Sys2Proof.Machine

/-- TAKE is enabled (R173). -/
def takeEnabled (s : State) : Bool := decide (s.ls = .wait) && s.rs.full

/-- PROCESS is enabled (R143). -/
def processEnabled (s : State) : Bool := decide (s.ls = .haveBatch)

/-- ARM is enabled (R147). -/
def armEnabled (s : State) : Bool := decide (s.ls = .rearmPending)

/-- NOTIFY is enabled (R171, R176). -/
def notifyEnabled (s : State) : Bool := s.cb && s.pa

/-- CONSTRUCT is accepted (R140, R141). -/
def constructAccepted (s : State) : Bool := decide (s.ls = .unbuilt)

/-- DESTROY is accepted (R140, R150). -/
def destroyAccepted (s : State) : Bool :=
  decide (s.ls = .wait) || decide (s.ls = .haveBatch) || decide (s.ls = .rearmPending) || decide (s.ls = .faulted)

/-- Is the operation enabled, so that its agent need not wait (R16, R140)? A HOST operation never waits: it runs or is
refused. -/
def enabled (i : Instr) (s : State) : Bool :=
  match i with
  | .matchEntry _ _ => true
  | .classify _ => true
  | .decodeFrame _ => true
  | .decodeRepeat _ => true
  | .construct _ _ => true
  | .process => processEnabled s
  | .arm _ => armEnabled s
  | .destroy _ => true
  | .notify _ => notifyEnabled s
  | .take => takeEnabled s

/-- The FM bit of a peripheral failure (R29, R203). -/
def faultBit : PeripheralFault → Nat
  | .startup => 0
  | .rearm => 1
  | .teardown => 2

/-- FM with one more bit set; no bit is ever cleared (R29, R205). -/
def setFaultBit (k : PeripheralFault) (fm : BitVec 3) : BitVec 3 := fm ||| (1#3 <<< faultBit k)

end Sys2Proof.Machine
end

