-- ==== Sys2Proof/Machine/Ops.lean ====
section
/-! DEFINITION. The shared operations over the buffers, the registers and the ports: reads that fault where the spec
says a read is a model fault (10_state.md R39, 20_memory.md R51), the port transactions (42_receive_loop.md R142, R149,
R151), fault entry (60_exceptions.md R204) and the atomic batch moves (R54). -/

namespace Sys2Proof.Machine

/-- The outcome of a computation that reads guarded fields. -/
def ofRead (r : Except Fault State) : Result :=
  match r with
  | .ok s => .next s
  | .error f => .fault f

/-- The agent waits: nothing changes (R16, R174, R207; log 2). -/
def waits (s : State) : Result := .next s

/-! ### Guarded reads -/

/-- SymRead(B, i) (R51). -/
def symRead (b : Batch) (i : Nat) : Except Fault Symbol :=
  if i < b.count.toNat then
    match b.sym[i]? with
    | some x => .ok x
    | none => .error .outOfBatchRead
  else .error .outOfBatchRead

/-- Read RS.count and RS.sym, which are specified only while RS.full = 1 (R26, R39). -/
def readRelay (s : State) : Except Fault Batch :=
  if s.rs.full then .ok s.rs.batch else .error (.unspecifiedRead .relayBatch)

/-- Read WB, which is specified only while LS = HAVE_BATCH (R27, R39). -/
def readWork (s : State) : Except Fault Batch :=
  if s.ls = .haveBatch then .ok s.wb else .error (.unspecifiedRead .workBuffer)

/-- Read LF.address and LF.command, which are specified only while LF.valid = 1 (R28, R39). -/
def readLast (s : State) : Except Fault LastFrame :=
  if s.lf.valid then .ok s.lf else .error (.unspecifiedRead .lastFrame)

/-- Read CFG, which is specified only after CONSTRUCT (R25, R39; log 6). -/
def readCfg (s : State) : Except Fault Word :=
  if s.ls = .unbuilt then .error (.unspecifiedRead .captureConfig) else .ok s.cfg

/-! ### Observation records -/

/-- Trace(t) (R15, R31). -/
def trace (t : TraceRecord) (s : State) : State := { s with tr := s.tr ++ [t] }

/-- PUBLISH(e): it always completes (R149, R30). -/
def publish (e : IrCommand) (s : State) : State := { s with eh := s.eh ++ [e] }

/-! ### Faults: taking one, and the only way on -/

/-- raise Fault(k): set FM[k] and enter FAULTED; nothing is saved and control moves nowhere else (R204). -/
def raiseFault (k : PeripheralFault) (s : State) : State :=
  { s with fm := setFaultBit k s.fm, ls := .faulted }

/-- The end of the loop. There is no return from a fault: from FAULTED the only way on is DESTROY, which ends here
(R205, R150). -/
def terminate (s : State) : State := { s with ls := .stopped }

/-! ### Port transactions with the Pulse Capture Source -/

/-- arm(buffer, config): PA is set on success and cleared on failure (R142, R22). -/
def armPort (config : Word) (f : Answer) (s : State) : State :=
  { s with pa := decide (f = .success), portLog := s.portLog ++ [.arm config f] }

/-- disable(handle): on success PA, CB and H are cleared; on failure they keep their values (R151). -/
def disablePort (f : Answer) (s : State) : State :=
  match f with
  | .success => { s with pa := false, cb := false, h := false, portLog := s.portLog ++ [.disable f] }
  | .failure => { s with portLog := s.portLog ++ [.disable f] }

/-! ### Buffers -/

/-- An unspecified symbol: two durations of DUR_W bits that nothing constrains further (R12; log 7). -/
def freeSymbol (durW draw slot : Nat) : Symbol :=
  ⟨Config.freeHigh draw slot % 2 ^ durW, Config.freeLow draw slot % 2 ^ durW⟩

/-- Unspecified symbols for the slots lo..hi-1 of a buffer (log 7). -/
def freeSymbols (durW draw lo hi : Nat) : List Symbol :=
  (List.range' lo (hi - lo)).map (freeSymbol durW draw)

/-- WB <- unspecified: free values, and the counter moves on (R27, R143, R150; log 7). -/
def discardWork (s : State) : State :=
  { s with
    wb := { count := Config.freeCount s.draws, sym := freeSymbols s.params.durW s.draws 0 s.params.maxSymbols }
    draws := s.draws + 1 }

/-- Empty the relay: RS.full <- 0 (R141, R150). -/
def emptyRelay (s : State) : State := { s with rs := { s.rs with full := false } }

/-- Put a batch into the relay: RS.count, RS.sym[k] for k < count, RS.full; the slots from count on are unspecified
(R171; log 7). -/
def putRelay (b : Batch) (s : State) : State :=
  { s with
    rs := { full := true
            batch := { count := b.count
                       sym := b.sym ++ freeSymbols s.params.durW s.draws b.sym.length s.params.maxSymbols } }
    draws := s.draws + 1 }

/-- Copy a batch into the work buffer: WB.count and WB.sym[k] for k < count; the other slots are not written
(R173; log 15). -/
def copyToWork (b : Batch) (s : State) : State :=
  { s with wb := { count := b.count, sym := b.sym.take b.count.toNat ++ s.wb.sym.drop b.count.toNat } }

/-! ### The last-known frame -/

/-- LF <- {1, a, c} (R144). -/
def rememberFrame (a c : BitVec 16) (s : State) : State :=
  { s with lf := { valid := true, address := a, command := c } }

/-- LF.valid <- 0 (R141). -/
def forgetFrame (s : State) : State := { s with lf := { s.lf with valid := false } }

end Sys2Proof.Machine
end

