-- ==== Sys2Proof/Machine/Classifier.lean ====
section
/-! DEFINITION. SC, the symbol classifier: MATCH and CLASSIFY (spec 40_classifier.md). -/

namespace Sys2Proof.Machine

/-- InWindow(d, n): both bounds exclusive, over the integers (R101). -/
def inWindow (margin d n : Nat) : Bool :=
  decide ((n : Int) - (margin : Int) < (d : Int)) && decide ((d : Int) < (n : Int) + (margin : Int))

/-- Match(s, e) (R100). -/
def symMatches (p : Config.Params) (x : Symbol) (e : TimingEntry) : Bool :=
  inWindow p.margin x.dh (nominal p e).nh && inWindow p.margin x.dl (nominal p e).nl

/-- ClassifyBit(s): a symbol that matches both entries is NONE (R103). -/
def classifyBit (p : Config.Params) (x : Symbol) : BitClass :=
  let m0 := symMatches p x .zero
  let m1 := symMatches p x .one
  if m0 && m1 then .none
  else if m1 then .bit1
  else if m0 then .bit0
  else .none

/-- MATCH (R102). -/
def execMatchEntry (e : TimingEntry) (x : Symbol) (s : State) : Result :=
  .next (trace (.query (.matched (symMatches s.params x e))) s)

/-- CLASSIFY (R104). -/
def execClassify (x : Symbol) (s : State) : Result :=
  .next (trace (.query (.bitClass (classifyBit s.params x))) s)

end Sys2Proof.Machine
end

