-- ==== Sys2Proof/Machine/Codec.lean ====
section
/-! DEFINITION. FC, the frame codec: DecodeFrame and DecodeRepeat, pure functions of a batch and the parameters, and
the queries DECODE_FRAME and DECODE_REPEAT (spec 41_frame_codec.md). -/

namespace Sys2Proof.Machine

/-- The bit loop of R121 over the bit positions still to do: bit i is the class of symbol index base + i, a NONE ends
it at once (R122, R128). -/
def assembleBits (p : Config.Params) (b : Batch) (base : Nat) :
    List Nat → BitVec 16 → Except Fault (Option (BitVec 16))
  | [], acc => .ok (some acc)
  | i :: rest, acc =>
    match symRead b (base + i) with
    | .error f => .error f
    | .ok x =>
      match classifyBit p x with
      | .none => .ok none
      | .bit1 => assembleBits p b base rest (acc ||| (1#16 <<< i))
      | .bit0 => assembleBits p b base rest acc

/-- The payload of a frame whose leading code matched: address from indices 1..16, command from 17..32; index 33 is
never read, and no bit is checked against another (R121, R123, R124). -/
def decodePayload (p : Config.Params) (b : Batch) : Except Fault DecodeOutcome :=
  match assembleBits p b 1 (List.range Config.addrBits) 0#16 with
  | .error f => .error f
  | .ok none => .ok (.invalid .invalidBit)
  | .ok (some address) =>
    match assembleBits p b 17 (List.range Config.cmdBits) 0#16 with
    | .error f => .error f
    | .ok none => .ok (.invalid .invalidBit)
    | .ok (some command) => .ok (.frame { address := address, command := command, isRepeat := false })

/-- DecodeFrame(B) (R121). -/
def decodeFrame (p : Config.Params) (b : Batch) : Except Fault DecodeOutcome :=
  if b.count.toNat ≠ Config.frameSymbols then .ok (.invalid .unexpectedSymbolCount)
  else
    match symRead b 0 with
    | .error f => .error f
    | .ok x => if symMatches p x .lead then decodePayload p b else .ok (.invalid .invalidLeadingCode)

/-- DecodeRepeat(B): symbol 1 is never read (R126). -/
def decodeRepeat (p : Config.Params) (b : Batch) : Except Fault RepeatOutcome :=
  if b.count.toNat ≠ Config.repeatSymbols then .ok (.invalid .unexpectedSymbolCount)
  else
    match symRead b 0 with
    | .error f => .error f
    | .ok x => if symMatches p x .rep then .ok .isRepeat else .ok (.invalid .invalidLeadingCode)

/-- DECODE_FRAME (R125). -/
def execDecodeFrame (b : List Symbol) (s : State) : Result :=
  withBatch b s fun batch =>
    match decodeFrame s.params batch with
    | .error f => .fault f
    | .ok o => .next (trace (.query (.frameOutcome o)) s)

/-- DECODE_REPEAT (R127). -/
def execDecodeRepeat (b : List Symbol) (s : State) : Result :=
  withBatch b s fun batch =>
    match decodeRepeat s.params batch with
    | .error f => .fault f
    | .ok o => .next (trace (.query (.repeatOutcome o)) s)

end Sys2Proof.Machine
end

