-- ==== Sys2Proof/Machine/Loop.lean ====
section
/-! DEFINITION. RL, the receive-loop controller: CONSTRUCT, PROCESS, ARM and DESTROY (spec 42_receive_loop.md). -/

namespace Sys2Proof.Machine

/-! ### CONSTRUCT (R141) -/

/-- CONSTRUCT after its check: store CFG, empty the relay, forget the frame, register and arm in one step (R141). -/
def construct (f : Answer) (c : Word) (s : State) : State :=
  let s1 := armPort c f (forgetFrame (emptyRelay { s with cfg := c }))
  match f with
  | .success => { s1 with cb := true, h := true, ls := .wait }
  | .failure => raiseFault .startup { s1 with cb := false, h := false }

/-- CONSTRUCT (R141). -/
def execConstruct (f : Answer) (c : Word) (s : State) : Result :=
  if constructAccepted s then .next (construct f c s) else .refused .lifecycle

/-! ### PROCESS (R143) -/

/-- The disposition of a frame that does not decode (R144). -/
def invalidDisposition (r : Reason) : Disposition :=
  if r = .invalidLeadingCode then .dropInvalidLeading else .dropInvalidBit

/-- The full-frame path (R144). -/
def processFrame (b : Batch) (s : State) : Except Fault State :=
  match decodeFrame s.params b with
  | .error f => .error f
  | .ok (.frame fr) =>
    .ok (trace (.disp .publishedFrame)
      (publish { address := fr.address, command := fr.command, isRepeat := false }
        (rememberFrame fr.address fr.command s)))
  | .ok (.invalid r) => .ok (trace (.disp (invalidDisposition r)) s)

/-- Publish the last-known frame as a repeat (R145). -/
def publishRepeat (s : State) : Except Fault State :=
  match readLast s with
  | .error f => .error f
  | .ok lf =>
    .ok (trace (.disp .publishedRepeat)
      (publish { address := lf.address, command := lf.command, isRepeat := true } s))

/-- The repeat path; LF is never written (R145). -/
def processRepeat (b : Batch) (s : State) : Except Fault State :=
  match decodeRepeat s.params b with
  | .error f => .error f
  | .ok .isRepeat =>
    if s.lf.valid then publishRepeat s else .ok (trace (.disp .dropRepeatNoPrior) s)
  | .ok (.invalid _) => .ok (trace (.disp .dropInvalidLeading) s)

/-- The routing by count (R143, R144, R145, R146). -/
def routeBatch (b : Batch) (s : State) : Except Fault State :=
  if b.count.toNat = Config.frameSymbols then processFrame b s
  else if b.count.toNat = Config.repeatSymbols then processRepeat b s
  else .ok (trace (.disp .dropCount) s)

/-- The end of every PROCESS: WB is discarded and the re-arm is next (R143). -/
def finishProcess (s : State) : State := { discardWork s with ls := .rearmPending }

/-- PROCESS after its check (R143). -/
def process (s : State) : Except Fault State :=
  match readWork s with
  | .error f => .error f
  | .ok b =>
    match routeBatch b s with
    | .error f => .error f
    | .ok s' => .ok (finishProcess s')

/-- PROCESS (R143). -/
def execProcess (s : State) : Result :=
  if processEnabled s then ofRead (process s) else waits s

/-! ### ARM (R147) -/

/-- ARM after its check, with the CFG it presents (R147, R142). -/
def rearm (f : Answer) (c : Word) (s : State) : State :=
  match f with
  | .success => { armPort c f s with ls := .wait }
  | .failure => raiseFault .rearm (armPort c f s)

/-- ARM (R147). -/
def execArm (f : Answer) (s : State) : Result :=
  if armEnabled s then
    match readCfg s with
    | .error e => .fault e
    | .ok c => .next (rearm f c s)
  else waits s

/-! ### DESTROY (R150) -/

/-- DESTROY with a handle: disable, then terminate (R150, R151). -/
def teardown (f : Answer) (s : State) : State :=
  match f with
  | .success => terminate (discardWork (emptyRelay (disablePort f s)))
  | .failure => raiseFault .teardown (disablePort f s)

/-- DESTROY with no handle: the construct failed, no disable call is made and F is ignored (R150). -/
def abandon (s : State) : State :=
  terminate (emptyRelay { s with pa := false, cb := false })

/-- DESTROY (R150). -/
def execDestroy (f : Answer) (s : State) : Result :=
  if destroyAccepted s then .next (if s.h then teardown f s else abandon s) else .refused .lifecycle

end Sys2Proof.Machine
end

