-- ==== Sys2Proof/Machine/Relay.lean ====
section
/-! DEFINITION. SR, the symbol relay: NOTIFY and TAKE (spec 43_symbol_relay.md). -/

namespace Sys2Proof.Machine

/-- A delivery into a full relay leaves an Overwrite record (R172). -/
def traceOverwrite (s : State) : State := if s.rs.full then trace .overwrite s else s

/-- A delivery ends the capture window when ONE_SHOT (R176). -/
def endWindow (s : State) : State := if s.params.oneShot then { s with pa := false } else s

/-- NOTIFY after its check (R171). -/
def deliver (b : Batch) (s : State) : State := endWindow (putRelay b (traceOverwrite s))

/-- NOTIFY (R171). -/
def execNotify (b : List Symbol) (s : State) : Result :=
  withBatch b s fun batch => if notifyEnabled s then .next (deliver batch s) else waits s

/-- TAKE after its check, with the batch it takes (R173). -/
def takeBatch (b : Batch) (s : State) : State :=
  { emptyRelay (copyToWork b s) with ls := .haveBatch }

/-- TAKE (R173). -/
def execTake (s : State) : Result :=
  if takeEnabled s then
    match readRelay s with
    | .error e => .fault e
    | .ok b => .next (takeBatch b s)
  else waits s

end Sys2Proof.Machine
end

