-- ==== Sys2Proof/Machine/Dispatch.lean ====
section
/-! DEFINITION. exec: the meaning of every operation, one arm per row of the opcode map (spec 30_encoding.md R71). -/

namespace Sys2Proof.Machine

def exec (i : Instr) (s : State) : Host.Outcome State Fault Refusal :=
  match i with
  | .matchEntry e x => Sys2Proof.Machine.execMatchEntry e x s
  | .classify x => Sys2Proof.Machine.execClassify x s
  | .decodeFrame b => Sys2Proof.Machine.execDecodeFrame b s
  | .decodeRepeat b => Sys2Proof.Machine.execDecodeRepeat b s
  | .construct f c => Sys2Proof.Machine.execConstruct f c s
  | .process => Sys2Proof.Machine.execProcess s
  | .arm f => Sys2Proof.Machine.execArm f s
  | .destroy f => Sys2Proof.Machine.execDestroy f s
  | .notify b => Sys2Proof.Machine.execNotify b s
  | .take => Sys2Proof.Machine.execTake s

end Sys2Proof.Machine
end

