-- ==== Sys2Proof/Machine/Fetch.lean ====
section
/-! DEFINITION. Which operation comes next (log 1): the turn of the schedule names an agent, whose next operation is
decoded from the words it is about to issue (spec 30_encoding.md R84), checked for its agent (R89) and for being enabled
(42_receive_loop.md R140). -/

namespace Sys2Proof.Machine

/-- What a turn comes to. -/
inductive Fetched where
  /-- No operation runs: nobody has a turn, the agent has issued nothing whole, or it waits. -/
  | idle (s : State)
  /-- The use is refused. -/
  | refuse (r : Refusal)
  /-- The operation i runs in s. -/
  | run (i : Instr) (s : State)
  deriving DecidableEq, Repr

/-- The words an agent is about to issue. -/
def streamOf (io : Schedule) (a : Agent) : List Word :=
  match a with
  | .host => io.host
  | .capture => io.capture
  | .worker => io.worker
  | .sink => io.sink

/-- The schedule with an agent's words replaced. -/
def withStream (io : Schedule) (a : Agent) (ws : List Word) : Schedule :=
  match a with
  | .host => { io with host := ws }
  | .capture => { io with capture := ws }
  | .worker => { io with worker := ws }
  | .sink => { io with sink := ws }

/-- The turn has passed. -/
def passTurn (s : State) : State := { s with io := { s.io with turns := s.io.turns.tail } }

/-- The turn has passed and agent a has issued its words up to ws. -/
def consume (a : Agent) (ws : List Word) (s : State) : State :=
  { s with io := withStream { s.io with turns := s.io.turns.tail } a ws }

/-- The refusal of words that do not decode (R84, R207), if it is one: an operation not yet whole is none (log 10), and
the spare bits of a SYM operand are reserved bits (log 4). -/
def refusalOf (e : DecodeError) : Option Refusal :=
  match e with
  | .illegalOp => some .illegalOp
  | .reservedBits => some .reservedBits
  | .countTooLarge => some .countTooLarge
  | .truncated => none
  | .spareBits => some .reservedBits

/-- The turn of agent a. -/
def fetchFor (a : Agent) (s : State) : Fetched :=
  match decode s.params (streamOf s.io a) with
  | .error e =>
    match refusalOf e with
    | some r => .refuse r
    | none => .idle (passTurn s)
  | .ok r =>
    if agentOf r.1 ≠ a then .refuse .wrongAgent
    else if enabled r.1 s then .run r.1 (consume a r.2 s)
    else .idle (passTurn s)

/-- The next turn; with none left nothing happens. -/
def fetch (s : State) : Fetched :=
  match s.io.turns with
  | [] => .idle s
  | a :: _ => fetchFor a s

/-! ### Placing an operation where it is fetched next -/

/-- The agent an operation word belongs to; HOST for a reserved OP (R71, R76). -/
def agentOfWord (w : Word) : Agent :=
  match opOfCode (opField w) with
  | some op => agentOfOp op
  | none => .host

/-- How many words an operation is, from its first word; 1 for a reserved OP (R80). -/
def lengthOfWord (durW : Nat) (w : Word) : Nat :=
  match opOfCode (opField w) with
  | some op => 1 + operandWords durW op w
  | none => 1

/-- Give agent a the next turn, with the words ws issued before what it had. -/
def issueNext (a : Agent) (ws : List Word) (s : State) : State :=
  { s with io := withStream { s.io with turns := a :: s.io.turns } a (ws ++ streamOf s.io a) }

/-- Issue next the operation whose words ws begins with, by its own agent. -/
def issueWords (ws : List Word) (s : State) : State :=
  match ws with
  | [] => s
  | w :: _ => issueNext (agentOfWord w) (ws.take (lengthOfWord s.params.durW w)) s

end Sys2Proof.Machine
end

