-- ==== Sys2Proof/Machine/Step.lean ====
section
/-! DEFINITION. One step of the machine: the next turn's operation runs (spec 00_scope.md R6, R16; logs 1 and 2). -/

namespace Sys2Proof.Machine

def step (s : State) : Host.Outcome State Fault Refusal :=
  match fetch s with
  | .idle s' => .next s'
  | .refuse r => .refused r
  | .run i s' => exec i s'

/-- s with the operation whose bits are w issued next by its own agent (log 13). -/
def State.withFetchWord (s : State) (nbits w : Nat) : State := issueWords (wordsOfTable s.params.durW nbits w) s

end Sys2Proof.Machine
end

