-- ==== Sys2Proof/Machine/Codes.lean ====
section
/-! DEFINITION. The code numbers and record layouts of the values the core shows: LS (spec 10_state.md R21), EVT
(30_encoding.md R79), BitClass (R85), reasons and outcomes (R86), dispositions (R87), query results (R88). -/

namespace Sys2Proof.Machine

/-- The 3-bit code of LS (R21). -/
def codeOfLoopState : LoopState → BitVec 3
  | .unbuilt => 0
  | .wait => 1
  | .haveBatch => 2
  | .rearmPending => 3
  | .stopped => 4
  | .faulted => 5

/-- The code of a BitClass; 3 never occurs (R85). -/
def codeOfBitClass : BitClass → BitVec 2
  | .bit0 => 0
  | .bit1 => 1
  | .none => 2

/-- The code of a decode error; 0 means no error (R86, R201). -/
def codeOfReason : Reason → BitVec 2
  | .invalidLeadingCode => 1
  | .invalidBit => 2
  | .unexpectedSymbolCount => 3

/-- The tag of an Outcome: 0 for Frame, 1 for Invalid (R86). -/
def tagOfOutcome : DecodeOutcome → BitVec 1
  | .frame _ => 0
  | .invalid _ => 1

/-- The reason code of an Outcome, 0 where there is no error (R86). -/
def reasonCodeOfOutcome : DecodeOutcome → BitVec 2
  | .frame _ => 0
  | .invalid r => codeOfReason r

/-- The pair (ok, reason) of DECODE_REPEAT (R86, R126). -/
def pairOfRepeat : RepeatOutcome → Bool × BitVec 2
  | .isRepeat => (true, 0)
  | .invalid r => (false, codeOfReason r)

/-- The code of a disposition (R87). -/
def codeOfDisposition : Disposition → Nat
  | .publishedFrame => 0
  | .publishedRepeat => 1
  | .dropInvalidLeading => 2
  | .dropInvalidBit => 3
  | .dropCount => 4
  | .dropRepeatNoPrior => 5

/-- EVT = {repeat, command[15:0], address[15:0]} (R79). -/
def evtOfCommand (e : IrCommand) : BitVec 33 := BitVec.ofBool e.isRepeat ++ (e.command ++ e.address)

/-- The IrCommand of an EVT record (R79). -/
def commandOfEvt (v : BitVec 33) : IrCommand :=
  { address := v.extractLsb' 0 16, command := v.extractLsb' 16 16, isRepeat := v.getLsbD 32 }

/-- A serialised EVT record: its 33 bits in five bytes, bits [7:0] in the first (R52). DESIGN CHOICE (log 20): the seven
spare bits of the fifth byte, of which the spec says nothing, are written zero. -/
def bytesOfEvt (v : BitVec 33) : List Byte := bytesOfNat 5 v.toNat

/-- The EVT record of its bytes (R52). DESIGN CHOICE (log 20): the spare bits of the fifth byte are not read. -/
def evtOfBytes (bs : List Byte) : BitVec 33 := BitVec.ofNat 33 (natOfBytes bs)

end Sys2Proof.Machine
end

