-- ==== Sys2Proof/Machine/Pseudo.lean ====
section
/-! DEFINITION. The pseudo-operations and the assembler text of the operations (spec 30_encoding.md R81, R82). A
pseudo-operation is not an instruction: it expands to the operations given here. -/

namespace Sys2Proof.Machine

/-- The symbol at an entry's exact nominal durations (R82). DESIGN CHOICE (log 19): a nominal of 2^DUR_W or more, which R9
does not exclude, is taken as it is; the symbol then has no SYM word, and an operation with it is not well-formed. -/
def nominalSymbol (t : Config.Timing) : Symbol := ⟨t.nh, t.nl⟩

/-- The default tail (560, 0) (R82). -/
def defaultTail : Symbol := ⟨560, 0⟩

/-- The symbols of a 16-bit value, bit 0 first (R82). -/
def bitSymbols (n : Config.NomTable) (v : BitVec 16) : List Symbol :=
  (List.range 16).map fun i => nominalSymbol (if v.getLsbD i then n.one else n.zero)

/-- NEC(a, c, t): LEAD, 16 address bits, 16 command bits, the tail (R82). -/
def necBatch (n : Config.NomTable) (a c : BitVec 16) (t : Symbol) : List Symbol :=
  nominalSymbol n.lead :: (bitSymbols n a ++ bitSymbols n c ++ [t])

/-- REP(t) (R82). -/
def repBatch (n : Config.NomTable) (t : Symbol) : List Symbol := [nominalSymbol n.rep, t]

/-- NOTIFY.NEC (R82). -/
def notifyNec (n : Config.NomTable) (a c : BitVec 16) (t : Symbol) : Instr := .notify (necBatch n a c t)

/-- NOTIFY.REP (R82). -/
def notifyRep (n : Config.NomTable) (t : Symbol) : Instr := .notify (repBatch n t)

/-- DECODE_FRAME.NEC (R82). -/
def decodeFrameNec (n : Config.NomTable) (a c : BitVec 16) (t : Symbol) : Instr := .decodeFrame (necBatch n a c t)

/-- ITER: one iteration of the loop with a successful re-arm (R82). -/
def iter : List Instr := [.take, .process, .arm .success]

/-! ### Assembler text (R81) -/

def asmSymbol (x : Symbol) : String :=
  "(" ++ toString x.dh ++ ", " ++ toString x.dl ++ ")"

def asmBatch (b : List Symbol) : String :=
  "[" ++ ", ".intercalate (b.map asmSymbol) ++ "]"

def asmEntry : TimingEntry → String
  | .lead => "LEAD"
  | .zero => "ZERO"
  | .one => "ONE"
  | .rep => "REPEAT"

/-- The suffix of a failing peripheral answer (R81). -/
def asmAnswer : Answer → String
  | .success => ""
  | .failure => ".F"

/-- The line of assembler text of an operation (R81). -/
def asm (i : Instr) : String :=
  match i with
  | .matchEntry e x => "MATCH " ++ asmEntry e ++ ", " ++ asmSymbol x
  | .classify x => "CLASSIFY " ++ asmSymbol x
  | .decodeFrame b => "DECODE_FRAME " ++ asmBatch b
  | .decodeRepeat b => "DECODE_REPEAT " ++ asmBatch b
  | .construct f c =>
    "CONSTRUCT" ++ asmAnswer f ++ " " ++ toString (cfgMin c).toNat ++ ", " ++ toString (cfgMax c).toNat
  | .process => "PROCESS"
  | .arm f => "ARM" ++ asmAnswer f
  | .destroy f => "DESTROY" ++ asmAnswer f
  | .notify b => "NOTIFY " ++ asmBatch b
  | .take => "TAKE"

end Sys2Proof.Machine
end

