-- ==== Sys2Proof/Safety.lean ====
section
/-! DEFINITION. The terms claims about NEC_IR_CORE use: the registers of the spec without the model's own fields, what
a batch decodes to said without the decoder, the host's obligations, and the invariant of a run. -/

namespace Sys2Proof.Machine

/-! ### The spec's registers -/

/-- The registers, buffers and observation records of the spec (10_state.md R20), without the parameters and the
model's own fields. -/
structure Registers where
  ls  : LoopState
  pa  : Bool
  h   : Bool
  cb  : Bool
  cfg : Word
  rs  : RelaySlot
  wb  : Batch
  lf  : LastFrame
  fm  : BitVec 3
  eh  : List IrCommand
  tr  : List TraceRecord
  deriving DecidableEq, Repr

def registers (s : State) : Registers :=
  { ls := s.ls, pa := s.pa, h := s.h, cb := s.cb, cfg := s.cfg, rs := s.rs, wb := s.wb, lf := s.lf, fm := s.fm,
    eh := s.eh, tr := s.tr }

/-! ### What a batch decodes to, said without the decoder -/

/-- Both durations of x lie strictly within MARGIN of entry e's nominal values, over the integers (R100, R101). -/
def InsideEntry (p : Config.Params) (x : Symbol) (e : TimingEntry) : Prop :=
  ((nominal p e).nh : Int) - p.margin < x.dh ∧ (x.dh : Int) < (nominal p e).nh + p.margin ∧
  ((nominal p e).nl : Int) - p.margin < x.dl ∧ (x.dl : Int) < (nominal p e).nl + p.margin

/-- x is the data bit v: it matches v's entry and not the other (R103). -/
def IsBit (p : Config.Params) (x : Symbol) (v : Bool) : Prop :=
  if v then InsideEntry p x .one ∧ ¬ InsideEntry p x .zero else InsideEntry p x .zero ∧ ¬ InsideEntry p x .one

/-- x is no data bit: it matches both entries, or neither (R103). -/
def IsNoBit (p : Config.Params) (x : Symbol) : Prop :=
  InsideEntry p x .zero ↔ InsideEntry p x .one

/-- Slot k of a buffer holds a symbol with property P. -/
def SlotIs (sym : List Symbol) (k : Nat) (P : Symbol → Prop) : Prop := ∃ x, sym[k]? = some x ∧ P x

/-- The symbols of a full frame and the outcome the spec gives them (R121, R122, R128): a bad leading code is reported
whatever the bits are; a frame holds the 16 address bits of slots 1..16 and the 16 command bits of slots 17..32. -/
def FrameDecodesTo (p : Config.Params) (sym : List Symbol) (o : DecodeOutcome) : Prop :=
  match o with
  | .frame f =>
    SlotIs sym 0 (fun x => InsideEntry p x .lead) ∧
    (∀ i < 16, SlotIs sym (1 + i) (fun x => IsBit p x (f.address.getLsbD i))) ∧
    (∀ i < 16, SlotIs sym (17 + i) (fun x => IsBit p x (f.command.getLsbD i))) ∧
    f.isRepeat = false
  | .invalid .invalidLeadingCode => SlotIs sym 0 (fun x => ¬ InsideEntry p x .lead)
  | .invalid .invalidBit =>
    SlotIs sym 0 (fun x => InsideEntry p x .lead) ∧ ∃ k, 1 ≤ k ∧ k ≤ 32 ∧ SlotIs sym k (IsNoBit p)
  | .invalid .unexpectedSymbolCount => False

/-! ### Host obligations the core does not check -/

/-- CFG brackets the protocol's shortest and longest pulses (R232). DESIGN CHOICE (log 21): of the room 'with margin',
whose amount the spec leaves open, only the strict bounds are asked. -/
def ConfigBrackets (c : Word) : Prop := (cfgMin c).toNat < 560 ∧ 9000 < (cfgMax c).toNat

/-- The validated configuration with the source's table (R233). -/
def Validated (p : Config.Params) : Prop := p.nom = Config.sourceTable ∧ 0 < p.margin ∧ p.margin ≤ 565

/-! ### The invariant of a run -/

/-- WORKER is in its loop. -/
def inLoop (l : LoopState) : Bool := decide (l = .wait) || decide (l = .haveBatch) || decide (l = .rearmPending)

/-- The buffers have MAX_SYMBOLS slots that hold symbols of DUR_W bits, and a count that may be read is in range
(R26, R27, R32). -/
structure BuffersOk (s : State) : Prop where
  relaySlots : s.rs.batch.sym.length = s.params.maxSymbols
  workSlots : s.wb.sym.length = s.params.maxSymbols
  relayCount : s.rs.full = true → s.rs.batch.count.toNat ≤ s.params.maxSymbols
  relayDurations : ∀ x ∈ s.rs.batch.sym, symbolFits s.params.durW x = true
  workDurations : ∀ x ∈ s.wb.sym, symbolFits s.params.durW x = true
  workCount : s.ls = .haveBatch → s.wb.count.toNat ≤ s.params.maxSymbols

/-- The handle, the callback and the armed bit go with the loop state (R22, R23, R24, R141, R150). -/
structure LifecycleOk (s : State) : Prop where
  handleCallback : s.h = s.cb
  armedCallback : s.pa = true → s.cb = true
  loopBuilt : inLoop s.ls = true → s.cb = true
  closed : s.ls = .unbuilt ∨ s.ls = .stopped → s.cb = false ∧ s.rs.full = false
  faultRecorded : s.ls = .faulted → s.fm ≠ 0

/-- The arming discipline: WORKER waits only on an armed source or a waiting batch (R235), and with ONE_SHOT a
delivered batch has ended its window (R176, R58). -/
structure ArmingOk (s : State) : Prop where
  notStarved : s.ls = .wait → s.pa = true ∨ s.rs.full = true
  windowEnded : s.params.oneShot = true → s.rs.full = true → s.pa = false
  ownedAlone : s.params.oneShot = true → s.ls = .haveBatch ∨ s.ls = .rearmPending → s.pa = false ∧ s.rs.full = false

/-- The last event carries the last-known frame, and there is none before a frame (R144, R145, R154). -/
structure HistoryOk (s : State) : Prop where
  freshInvalid : s.ls = .unbuilt → s.lf.valid = false
  noFrameNoEvent : s.lf.valid = false → s.eh = []
  lastEvent : s.lf.valid = true →
    ∃ e, s.eh.getLast? = some e ∧ e.address = s.lf.address ∧ e.command = s.lf.command

/-- The invariant of a run. -/
structure Invariant (s : State) : Prop where
  buffers : BuffersOk s
  lifecycle : LifecycleOk s
  arming : ArmingOk s
  history : HistoryOk s

end Sys2Proof.Machine
end

