-- ==== Sys2Proof/Certificates/Slice0/Obligations.lean ====
section
/-! DEFINITION. What the provers are asked to prove about NEC_IR_CORE. Each statement's docstring says which rule of
the spec it formalises; a clause that rests on a choice of the model names the log entry. -/

open Sys2Proof Sys2Proof.Machine

/-! ### Encoding -/

/-- Decoding the words of a well-formed operation gives the operation, and leaves the words after it, at every value of
the parameters (R70, R80; the words of a SYM at a DUR_W other than 16 are the model's, log 4). -/
def Obligations.DecodeOfEncode : Prop :=
  ∀ (p : Config.Params) (i : Instr) (rest : List Word), wellFormed p i = true →
    decode p (encode p.durW i ++ rest) = .ok (i, rest)

/-- Every word list that decodes is the words of a well-formed operation and what is left: no word has two meanings
and no bit is dropped (R76, R84; the words of a SYM at a DUR_W other than 16 are the model's, log 4). -/
def Obligations.EncodeOfDecode : Prop :=
  ∀ (p : Config.Params) (ws rest : List Word) (i : Instr), decode p ws = .ok (i, rest) →
    wellFormed p i = true ∧ ws = encode p.durW i ++ rest

/-- The refusals of a first word, in the order of R84: a reserved OP (R76); then a nonzero reserved bit or unused field
(R75); then COUNT over MAX_SYMBOLS (R73). -/
def Obligations.DecodeRefusesInOrder : Prop :=
  ∀ (p : Config.Params) (w : Word) (rest : List Word),
    let op := (w.extractLsb' 0 4).toNat
    let sel := w.extractLsb' 4 2
    let count := w.extractLsb' 8 7
    let legal := 1 ≤ op ∧ op ≤ 10
    let reserved := w.extractLsb' 6 2 ≠ 0 ∨ w.extractLsb' 16 16 ≠ 0 ∨ (op ≠ 1 ∧ sel ≠ 0) ∨
      (op ≠ 3 ∧ op ≠ 4 ∧ op ≠ 9 ∧ count ≠ 0) ∨ (op ≠ 5 ∧ op ≠ 7 ∧ op ≠ 8 ∧ w.getLsbD 15 = true)
    (decode p (w :: rest) = .error .illegalOp ↔ ¬ legal) ∧
    (decode p (w :: rest) = .error .reservedBits ↔ legal ∧ reserved) ∧
    (decode p (w :: rest) = .error .countTooLarge ↔ legal ∧ ¬ reserved ∧ p.maxSymbols < count.toNat)

/-- With DUR_W = 16, a first word that passes the checks of R84, with its k operand words (R80), whatever they are, is
the operation whose word it is, and exactly the k words after it are its operands. -/
def Obligations.LegalWordDecodesToItsRow : Prop :=
  ∀ (p : Config.Params) (w : Word) (rest : List Word), p.durW = 16 →
    let op := (w.extractLsb' 0 4).toNat
    let count := (w.extractLsb' 8 7).toNat
    let k := if op = 1 ∨ op = 2 ∨ op = 5 then 1 else if op = 3 ∨ op = 4 ∨ op = 9 then count else 0
    decode p (w :: rest) ≠ .error .illegalOp → decode p (w :: rest) ≠ .error .reservedBits →
    decode p (w :: rest) ≠ .error .countTooLarge → k ≤ rest.length →
      ∃ i, decode p (w :: rest) = .ok (i, rest.drop k) ∧ headerWord i = w ∧ operandsOf 16 i = rest.take k

/-- With DUR_W = 16 every 32-bit word is one SYM word, bits [15:0] its duration_high and bits [31:16] its duration_low
(R77). -/
def Obligations.EveryWordIsOneSymbol : Prop :=
  ∀ w : Word,
    symOfWords 16 [w] = some ⟨(w.extractLsb' 0 16).toNat, (w.extractLsb' 16 16).toNat⟩ ∧
    wordsOfSym 16 ⟨(w.extractLsb' 0 16).toNat, (w.extractLsb' 16 16).toNat⟩ = [w]

/-- The worked encodings of R83 decode to the operations they stand for. -/
def Obligations.WorkedEncodingsDecode : Prop :=
  decode Config.defaults [0x00000001, 0x11942328] = .ok (.matchEntry .lead ⟨9000, 4500⟩, []) ∧
  decode Config.defaults [0x00000031, 0x08CA2328] = .ok (.matchEntry .rep ⟨9000, 2250⟩, []) ∧
  decode Config.defaults [0x00000002, 0x069A0230] = .ok (.classify ⟨560, 1690⟩, []) ∧
  decode Config.defaults [0x00000204, 0x08CA2328, 0x00000230] = .ok (.decodeRepeat [⟨9000, 2250⟩, ⟨560, 0⟩], []) ∧
  decode Config.defaults [0x00000005, 0x2EE0012C] = .ok (.construct .success (cfgWord 300 12000), []) ∧
  decode Config.defaults [0x00008005, 0x2EE0012C] = .ok (.construct .failure (cfgWord 300 12000), []) ∧
  decode Config.defaults [0x00000006] = .ok (.process, []) ∧
  decode Config.defaults [0x00000007] = .ok (.arm .success, []) ∧
  decode Config.defaults [0x00008007] = .ok (.arm .failure, []) ∧
  decode Config.defaults [0x00000008] = .ok (.destroy .success, []) ∧
  decode Config.defaults [0x00008008] = .ok (.destroy .failure, []) ∧
  decode Config.defaults (0x00002209 :: List.replicate 34 0x02300230) = .ok (.notify (List.replicate 34 ⟨560, 560⟩), []) ∧
  decode Config.defaults [0x00000209, 0x08CA2328, 0x00000230] = .ok (.notify [⟨9000, 2250⟩, ⟨560, 0⟩], []) ∧
  decode Config.defaults [0x0000000A] = .ok (.take, [])

/-- A serialised word has bits [7:0] in its first byte, and is read back from its bytes; so is the 33-bit IrCommand
record, in five bytes, of whose fifth byte the seven spare bits are zero by the model's choice (R52; log 20). -/
def Obligations.SerialisedWordIsLittleEndian : Prop :=
  (∀ w : Word,
    bytesOfWord w = [w.extractLsb' 0 8, w.extractLsb' 8 8, w.extractLsb' 16 8, w.extractLsb' 24 8] ∧
    wordOfBytes (bytesOfWord w) = w) ∧
  (∀ v : BitVec 33,
    bytesOfEvt v = [v.extractLsb' 0 8, v.extractLsb' 8 8, v.extractLsb' 16 8, v.extractLsb' 24 8,
      (v.extractLsb' 32 1).setWidth 8] ∧
    evtOfBytes (bytesOfEvt v) = v)

/-- The bits of an EVT record, and the IrCommand read back from them (R79). -/
def Obligations.EventRecordLayout : Prop :=
  ∀ e : IrCommand,
    (evtOfCommand e).extractLsb' 0 16 = e.address ∧ (evtOfCommand e).extractLsb' 16 16 = e.command ∧
    (evtOfCommand e).getLsbD 32 = e.isRepeat ∧ commandOfEvt (evtOfCommand e) = e

/-! ### Classifier -/

/-- MATCH completes in every state: it records whether both durations lie strictly inside entry e's windows, over the
integers, and changes nothing else (R100, R101, R102). -/
def Obligations.MatchRecordsBothWindows : Prop :=
  ∀ (e : TimingEntry) (x : Symbol) (s : State), ∃ v,
    exec (.matchEntry e x) s = .next { s with tr := s.tr ++ [.query (.matched v)] } ∧
    (v = true ↔ InsideEntry s.params x e)

/-- CLASSIFY completes in every state: logic 1, logic 0, or NONE where the symbol matches both entries or neither;
nothing else changes (R103, R104). -/
def Obligations.ClassifyFailsOnAmbiguity : Prop :=
  ∀ (x : Symbol) (s : State), ∃ c,
    exec (.classify x) s = .next { s with tr := s.tr ++ [.query (.bitClass c)] } ∧
    (c = .bit1 ↔ InsideEntry s.params x .one ∧ ¬ InsideEntry s.params x .zero) ∧
    (c = .bit0 ↔ InsideEntry s.params x .zero ∧ ¬ InsideEntry s.params x .one) ∧
    (c = .none ↔ (InsideEntry s.params x .zero ↔ InsideEntry s.params x .one))

/-- The windows as inclusive ranges: for any MARGIN, at the default parameters entry by entry, and empty at MARGIN = 0
(R105). -/
def Obligations.WindowsAsInclusiveRanges : Prop :=
  (∀ margin d n : Nat, inWindow margin d n = true ↔ n + 1 - margin ≤ d ∧ d + 1 ≤ n + margin) ∧
  (∀ x : Symbol,
    let dh := x.dh
    let dl := x.dl
    (symMatches Config.defaults x .lead = true ↔ 8801 ≤ dh ∧ dh ≤ 9199 ∧ 4301 ≤ dl ∧ dl ≤ 4699) ∧
    (symMatches Config.defaults x .zero = true ↔ 361 ≤ dh ∧ dh ≤ 759 ∧ 361 ≤ dl ∧ dl ≤ 759) ∧
    (symMatches Config.defaults x .one = true ↔ 361 ≤ dh ∧ dh ≤ 759 ∧ 1491 ≤ dl ∧ dl ≤ 1889) ∧
    (symMatches Config.defaults x .rep = true ↔ 8801 ≤ dh ∧ dh ≤ 9199 ∧ 2051 ≤ dl ∧ dl ≤ 2449)) ∧
  (∀ (p : Config.Params) (x : Symbol) (e : TimingEntry), p.margin = 0 → symMatches p x e = false)

/-- With the source's table a symbol that matches both ZERO and ONE exists exactly when MARGIN is at least 566, and then
there is one of 16-bit durations (R106). -/
def Obligations.BitWindowsOverlapFrom566 : Prop :=
  ∀ p : Config.Params, p.nom = Config.sourceTable →
    ((∃ x, symMatches p x .zero = true ∧ symMatches p x .one = true) ↔ 566 ≤ p.margin) ∧
    (566 ≤ p.margin → ∃ x, symbolFits 16 x = true ∧ symMatches p x .zero = true ∧ symMatches p x .one = true)

/-! ### Codec -/

/-- DECODE_FRAME of a 34-symbol batch completes in every state, records the outcome the spec gives the batch, and
changes nothing else (R121, R122, R125). -/
def Obligations.DecodeFrameFollowsTheSymbols : Prop :=
  ∀ (b : List Symbol) (s : State), b.length = 34 → 34 ≤ s.params.maxSymbols →
    ∃ o, FrameDecodesTo s.params b o ∧
      exec (.decodeFrame b) s = .next { s with tr := s.tr ++ [.query (.frameOutcome o)] }

/-- DECODE_FRAME of a 34-symbol batch records the outcome o exactly when o is the outcome the spec gives the batch: so it
reports exactly one reason, and a bad leading code before a bad bit (R128), and a frame's 32 bits are fixed by the
symbols (R122). -/
def Obligations.FrameOutcomeIsUnique : Prop :=
  ∀ (b : List Symbol) (s : State) (o : DecodeOutcome), b.length = 34 → 34 ≤ s.params.maxSymbols →
    (exec (.decodeFrame b) s = .next { s with tr := s.tr ++ [.query (.frameOutcome o)] } ↔ FrameDecodesTo s.params b o)

/-- DecodeFrame reads no symbol after the first failing one: with a bad leading code or with a bit symbol k that is
neither bit, what stands after index k never matters to DECODE_FRAME, nor to the codec on a buffer, even where there are
no more slots (R128). -/
def Obligations.DecodeFrameStopsAtFirstFailure : Prop :=
  ∀ (p : Config.Params) (b b' : List Symbol) (k : Nat) (x : Symbol), b[k]? = some x → b.take (k + 1) = b'.take (k + 1) →
    (k = 0 ∧ ¬ InsideEntry p x .lead ∨ 1 ≤ k ∧ k ≤ 32 ∧ IsNoBit p x) →
    decodeFrame p ⟨34, b⟩ = decodeFrame p ⟨34, b'⟩ ∧
    ∀ s, s.params = p → b.length = 34 → b'.length = 34 → exec (.decodeFrame b') s = exec (.decodeFrame b) s

/-- DECODE_FRAME of a batch whose count is not 34 completes in every state with UnexpectedSymbolCount, and reads no
symbol: the outcome is the same whatever the slots hold, even if there are none (R121, R125). -/
def Obligations.DecodeFrameNeedsThirtyFour : Prop :=
  (∀ (b : List Symbol) (s : State), b.length ≠ 34 → batchFits s.params.maxSymbols b.length = true →
    exec (.decodeFrame b) s =
      .next { s with tr := s.tr ++ [.query (.frameOutcome (.invalid .unexpectedSymbolCount))] }) ∧
  (∀ (p : Config.Params) (count : BitVec 7) (sym : List Symbol), count.toNat ≠ 34 →
    decodeFrame p { count := count, sym := sym } = .ok (.invalid .unexpectedSymbolCount))

/-- Symbol index 33 never affects the outcome of DECODE_FRAME, and the codec never reads it: two batches of a full
frame's count whose slots below 33 agree have the same outcome, even where there is no slot 33 (R123). -/
def Obligations.TailSymbolIsIgnored : Prop :=
  (∀ (b : List Symbol) (x : Symbol) (s : State), b.length = 34 →
    exec (.decodeFrame (b.set 33 x)) s = exec (.decodeFrame b) s) ∧
  (∀ (p : Config.Params) (v v' : Batch), v.count = 34 → v'.count = 34 → v.sym.take 33 = v'.sym.take 33 →
    decodeFrame p v = decodeFrame p v')

/-- Every address and every command, encoded at exact nominal durations with any tail, decodes to itself: bits are
assembled LSB-first and no half of the command is checked against the other (R122, R124, R82), in every validated
configuration (R233). -/
def Obligations.NominalFrameRoundTrip : Prop :=
  ∀ (a c : BitVec 16) (tail : Symbol) (s : State), Validated s.params → 34 ≤ s.params.maxSymbols →
    exec (decodeFrameNec s.params.nom a c tail) s =
      .next { s with tr := s.tr ++ [.query (.frameOutcome (.frame ⟨a, c, false⟩))] }

/-- With the source's table, a bit symbol whose duration lies exactly at nominal ± MARGIN makes the frame InvalidBit:
the boundary is exclusive on every side (R101, R103). -/
def Obligations.BoundaryBitFailsTheFrame : Prop :=
  ∀ (b : List Symbol) (s : State) (k : Nat) (x : Symbol), b.length = 34 → 34 ≤ s.params.maxSymbols →
    s.params.nom = Config.sourceTable → s.params.margin ≤ 565 →
    SlotIs b 0 (fun y => InsideEntry s.params y .lead) → 1 ≤ k → k ≤ 32 → b[k]? = some x →
    (x.dh = 560 + s.params.margin ∨ x.dh + s.params.margin = 560 ∨
      x.dl = 560 + s.params.margin ∨ x.dl + s.params.margin = 560 ∨
      x.dl = 1690 + s.params.margin ∨ x.dl + s.params.margin = 1690) →
    exec (.decodeFrame b) s = .next { s with tr := s.tr ++ [.query (.frameOutcome (.invalid .invalidBit))] }

/-- DECODE_REPEAT completes in every state on every batch: (true, 0) exactly for two symbols of which the first
matches REPEAT; UnexpectedSymbolCount for another count; InvalidLeadingCode otherwise; nothing else changes
(R126, R127). -/
def Obligations.DecodeRepeatReadsFirstOfTwo : Prop :=
  ∀ (b : List Symbol) (s : State), batchFits s.params.maxSymbols b.length = true → ∃ o,
    exec (.decodeRepeat b) s = .next { s with tr := s.tr ++ [.query (.repeatOutcome o)] } ∧
    (o = .isRepeat ↔ b.length = 2 ∧ SlotIs b 0 (fun x => InsideEntry s.params x .rep)) ∧
    (o = .invalid .unexpectedSymbolCount ↔ b.length ≠ 2) ∧
    (o = .invalid .invalidLeadingCode ↔ b.length = 2 ∧ SlotIs b 0 (fun x => ¬ InsideEntry s.params x .rep))

/-- A repeat batch at exact nominal durations decodes as a repeat, whatever its second symbol is, in every validated
configuration (R126, R82, R233). -/
def Obligations.NominalRepeatDecodes : Prop :=
  ∀ (tail : Symbol) (s : State), Validated s.params → 2 ≤ s.params.maxSymbols →
    exec (.decodeRepeat (repBatch s.params.nom tail)) s =
      .next { s with tr := s.tr ++ [.query (.repeatOutcome .isRepeat)] }

/-- A query is idempotent: it appends one Query record and changes nothing else, and run again it appends the same
record (R55). -/
def Obligations.QueriesAreIdempotent : Prop :=
  ∀ (i : Instr) (s t : State),
    ((∃ e x, i = .matchEntry e x) ∨ (∃ x, i = .classify x) ∨ (∃ b, i = .decodeFrame b) ∨ (∃ b, i = .decodeRepeat b)) →
    exec i s = .next t →
    ∃ q, t = { s with tr := s.tr ++ [.query q] } ∧ exec i t = .next { t with tr := t.tr ++ [.query q] }

/-! ### Receive loop -/

/-- CONSTRUCT in UNBUILT completes: with an arm that succeeds the core is built and armed in WAIT; with one that fails
nothing is held and STARTUP_FAILURE is raised; CFG is stored either way, and no other register changes (R141). -/
def Obligations.ConstructBuildsOrFaults : Prop :=
  ∀ (c : Word) (s : State), s.ls = .unbuilt →
    (∃ t, exec (.construct .success c) s = .next t ∧
      registers t = { registers s with
        cfg := c, rs := { s.rs with full := false }, lf := { s.lf with valid := false },
        cb := true, h := true, pa := true, ls := .wait }) ∧
    (∃ t, exec (.construct .failure c) s = .next t ∧
      registers t = { registers s with
        cfg := c, rs := { s.rs with full := false }, lf := { s.lf with valid := false },
        cb := false, h := false, pa := false, ls := .faulted, fm := s.fm ||| 0b001 })

/-- CONSTRUCT outside UNBUILT, and DESTROY in UNBUILT or STOPPED, are refused, and only there (R140). -/
def Obligations.LifecycleRefusals : Prop :=
  ∀ (f : Answer) (c : Word) (s : State),
    (exec (.construct f c) s = .refused .lifecycle ↔ s.ls ≠ .unbuilt) ∧
    (exec (.destroy f) s = .refused .lifecycle ↔ s.ls = .unbuilt ∨ s.ls = .stopped)

/-- PROCESS of a 34-symbol batch completes in HAVE_BATCH: a frame is remembered in LF and published, with disposition
PUBLISHED_FRAME; an invalid one is dropped with LF and EH unchanged; then REARM_PENDING. Of WB nothing is said: it
becomes unspecified. No other register changes (R143, R144). -/
def Obligations.ProcessFullFrame : Prop :=
  ∀ s : State, s.ls = .haveBatch → s.wb.count = 34 → 34 ≤ s.wb.sym.length →
    ∃ o t, FrameDecodesTo s.params s.wb.sym o ∧ exec .process s = .next t ∧
      registers t = match o with
        | .frame f => { registers s with
            ls := .rearmPending, wb := t.wb, lf := ⟨true, f.address, f.command⟩,
            eh := s.eh ++ [⟨f.address, f.command, false⟩], tr := s.tr ++ [.disp .publishedFrame] }
        | .invalid .invalidLeadingCode => { registers s with
            ls := .rearmPending, wb := t.wb, tr := s.tr ++ [.disp .dropInvalidLeading] }
        | .invalid _ => { registers s with
            ls := .rearmPending, wb := t.wb, tr := s.tr ++ [.disp .dropInvalidBit] }

/-- PROCESS of a 2-symbol batch completes in HAVE_BATCH: a repeat code with a prior frame publishes that frame as a
repeat; with none it is dropped; a bad repeat code is dropped; LF never changes, nor any other register (R143, R145). -/
def Obligations.ProcessRepeatBatch : Prop :=
  ∀ (s : State) (x : Symbol), s.ls = .haveBatch → s.wb.count = 2 → s.wb.sym[0]? = some x →
    ∃ t, exec .process s = .next t ∧
      (InsideEntry s.params x .rep → s.lf.valid = true →
        registers t = { registers s with
          ls := .rearmPending, wb := t.wb, eh := s.eh ++ [⟨s.lf.address, s.lf.command, true⟩],
          tr := s.tr ++ [.disp .publishedRepeat] }) ∧
      (InsideEntry s.params x .rep → s.lf.valid = false →
        registers t = { registers s with
          ls := .rearmPending, wb := t.wb, tr := s.tr ++ [.disp .dropRepeatNoPrior] }) ∧
      (¬ InsideEntry s.params x .rep →
        registers t = { registers s with
          ls := .rearmPending, wb := t.wb, tr := s.tr ++ [.disp .dropInvalidLeading] })

/-- PROCESS of a batch of any other count completes in HAVE_BATCH, whatever its slots hold: nothing is published and
LF is unchanged, with disposition DROP_COUNT (R146). -/
def Obligations.ProcessIgnoresOtherCounts : Prop :=
  ∀ s : State, s.ls = .haveBatch → s.wb.count ≠ 34 → s.wb.count ≠ 2 →
    ∃ t, exec .process s = .next t ∧
      registers t = { registers s with ls := .rearmPending, wb := t.wb, tr := s.tr ++ [.disp .dropCount] }

/-- A batch that PROCESS drops is absorbed: where no event is published, no register but TR, LS and the discarded WB
shows that there was one, LF among them, and TR has one more disposition, none of the published ones (R202, R240). -/
def Obligations.DroppedBatchIsAbsorbed : Prop :=
  ∀ s t : State, s.ls = .haveBatch → exec .process s = .next t → t.eh = s.eh →
    registers t = { registers s with ls := .rearmPending, wb := t.wb, tr := t.tr } ∧
    ∃ d, d ≠ .publishedFrame ∧ d ≠ .publishedRepeat ∧ t.tr = s.tr ++ [.disp d]

/-- ARM in REARM_PENDING completes: with an arm that succeeds PA is set and WORKER waits; with one that fails PA is
cleared and REARM_FAILURE is raised; no other register changes, RS in particular (R147). -/
def Obligations.ArmRearmsOrFaults : Prop :=
  ∀ s : State, s.ls = .rearmPending →
    (∃ t, exec (.arm .success) s = .next t ∧ registers t = { registers s with pa := true, ls := .wait }) ∧
    (∃ t, exec (.arm .failure) s = .next t ∧
      registers t = { registers s with pa := false, ls := .faulted, fm := s.fm ||| 0b010 })

/-- DESTROY in WAIT, HAVE_BATCH, REARM_PENDING or FAULTED completes: with a handle and a disable that succeeds the core
is stopped with PA, CB, H and RS.full cleared and WB unspecified; with a handle and a disable that fails TEARDOWN_FAILURE
is raised and PA, CB, H are unchanged; with no handle the core is stopped whatever F is. No other register changes
(R150). -/
def Obligations.DestroyStopsOrFaults : Prop :=
  ∀ s : State, s.ls = .wait ∨ s.ls = .haveBatch ∨ s.ls = .rearmPending ∨ s.ls = .faulted →
    (s.h = true → ∃ t, exec (.destroy .success) s = .next t ∧
      registers t = { registers s with
        pa := false, cb := false, h := false, rs := { s.rs with full := false }, wb := t.wb, ls := .stopped }) ∧
    (s.h = true → ∃ t, exec (.destroy .failure) s = .next t ∧
      registers t = { registers s with ls := .faulted, fm := s.fm ||| 0b100 }) ∧
    (∀ f, s.h = false → ∃ t, exec (.destroy f) s = .next t ∧
      registers t = { registers s with
        pa := false, cb := false, rs := { s.rs with full := false }, ls := .stopped })

/-- Taking a fault sets its FM bit, keeps every other, enters FAULTED, and saves or changes nothing else (R204). -/
def Obligations.FaultEntry : Prop :=
  ∀ (k : PeripheralFault) (s : State),
    let bit := match k with | .startup => 0 | .rearm => 1 | .teardown => 2
    (∀ i < 3, (raiseFault k s).fm.getLsbD i = (s.fm.getLsbD i || decide (i = bit))) ∧
    registers (raiseFault k s) = { registers s with fm := (raiseFault k s).fm, ls := .faulted }

/-! ### Relay -/

/-- NOTIFY with CB = 1 and PA = 1 completes whatever the relay holds: RS holds exactly the delivered batch, RS.full is
set, an untaken batch leaves an Overwrite record, PA is cleared when ONE_SHOT, and no other register changes
(R171, R172). -/
def Obligations.NotifyFillsTheRelay : Prop :=
  ∀ (b : List Symbol) (s : State), batchFits s.params.maxSymbols b.length = true → s.cb = true → s.pa = true →
    ∃ t, exec (.notify b) s = .next t ∧
      t.rs.full = true ∧ t.rs.batch.count.toNat = b.length ∧ (∀ k < b.length, t.rs.batch.sym[k]? = b[k]?) ∧
      registers t = { registers s with
        rs := t.rs, pa := !s.params.oneShot,
        tr := if s.rs.full then s.tr ++ [.overwrite] else s.tr }

/-- TAKE in WAIT with a waiting batch completes: WB is that batch, RS.full is cleared, WORKER is in HAVE_BATCH, and no
other register changes, RS.count and RS.sym among them (R173). -/
def Obligations.TakeMovesTheBatch : Prop :=
  ∀ s : State, s.ls = .wait → s.rs.full = true → s.rs.batch.count.toNat ≤ s.rs.batch.sym.length →
    ∃ t, exec .take s = .next t ∧
      t.wb.count = s.rs.batch.count ∧
      (∀ k < s.rs.batch.count.toNat, t.wb.sym[k]? = s.rs.batch.sym[k]?) ∧
      registers t = { registers s with
        ls := .haveBatch, wb := t.wb, rs := { s.rs with full := false } }

/-- The slots of WB at the count and above are not written by TAKE. The model's choice (log 15): R173 lists the slots
below the count only. -/
def Obligations.TakeLeavesHigherSlots : Prop :=
  ∀ (s t : State) (k : Nat), exec .take s = .next t → s.rs.batch.count.toNat ≤ s.rs.batch.sym.length →
    s.rs.batch.count.toNat ≤ k → t.wb.sym[k]? = s.wb.sym[k]?

/-- A worker or capture operation that is not enabled waits: the state survives unchanged. The model's form of waiting
(log 2) of what R140 and R207 say. -/
def Obligations.NotEnabledChangesNothing : Prop :=
  ∀ s : State,
    (¬ (s.ls = .wait ∧ s.rs.full = true) → exec .take s = .next s) ∧
    (s.ls ≠ .haveBatch → exec .process s = .next s) ∧
    (s.ls ≠ .rearmPending → ∀ f, exec (.arm f) s = .next s) ∧
    (¬ (s.cb = true ∧ s.pa = true) → ∀ b, batchFits s.params.maxSymbols b.length = true →
      exec (.notify b) s = .next s)

/-- A batch delivered by NOTIFY is taken whole: whatever happens in between that leaves RS alone, TAKE gives WB exactly
the delivered symbols (R54, R57). -/
def Obligations.TakeReturnsWhatNotifyPut : Prop :=
  ∀ (b : List Symbol) (s s1 s2 t : State), s.cb = true → s.pa = true → exec (.notify b) s = .next s1 →
    s2.rs = s1.rs → s2.ls = .wait → exec .take s2 = .next t →
    t.ls = .haveBatch ∧ t.wb.count.toNat = b.length ∧ (∀ k < b.length, symRead t.wb k = .ok (b.getD k ⟨0, 0⟩)) ∧
    (∀ k, b.length ≤ k → symRead t.wb k = .error .outOfBatchRead)

/-- PROCESS decodes the worker's own copy: whatever a delivery puts into RS, the batch being processed gives the same
events, last frame, disposition and loop state (R239). -/
def Obligations.ProcessIgnoresTheRelay : Prop :=
  ∀ (s t : State) (r : RelaySlot), exec .process s = .next t →
    exec .process { s with rs := r } = .next { t with rs := r }

/-! ### Steps and the schedule -/

/-- A step runs the operation whose words the agent of the next turn has issued: the turn passes, the agent's words are
consumed, the registers and parameters are as before, and the result is exec's (R16, R89; the schedule is the model's,
log 1). -/
def Obligations.StepRunsDecodedOperation : Prop :=
  ∀ (s : State) (a : Agent) (ts : List Agent) (i : Instr) (rest : List Word),
    s.io.turns = a :: ts → decode s.params (streamOf s.io a) = .ok (i, rest) →
    agentOf i = a → enabled i s = true →
    ∃ s1, step s = exec i s1 ∧ s1.io.turns = ts ∧ streamOf s1.io a = rest ∧
      (∀ a', a' ≠ a → streamOf s1.io a' = streamOf s.io a') ∧ s1 = { s with io := s1.io }

/-- A turn whose agent has an operation that is not enabled, or no whole operation, passes and changes nothing
else; the operation stays first in the agent's words. With no turn left nothing happens. The model's form of waiting
(logs 1, 2, 10). -/
def Obligations.WaitingAgentKeepsItsOperation : Prop :=
  ∀ (s : State),
    (s.io.turns = [] → step s = .next s) ∧
    (∀ a ts, s.io.turns = a :: ts →
      (decode s.params (streamOf s.io a) = .error .truncated ∨
        ∃ i rest, decode s.params (streamOf s.io a) = .ok (i, rest) ∧ agentOf i = a ∧ enabled i s = false) →
      step s = .next { s with io := { s.io with turns := ts } })

/-- A turn is refused where the agent's first word does not decode, by the name of R84's first failing check, and where
the operation belongs to another agent, SINK's own words among them (R89, R207). Where checks of different kinds fail at
once, their order (R84's, then WrongAgent, then Lifecycle or waiting) is the model's choice (log 16), and so is the
refusal of a SYM operand's spare bits, of which there are none at DUR_W = 16 (log 4). -/
def Obligations.StepRefusesByName : Prop :=
  ∀ (s : State) (a : Agent) (ts : List Agent), s.io.turns = a :: ts →
    let d := decode s.params (streamOf s.io a)
    (d = .error .illegalOp → step s = .refused .illegalOp) ∧
    (d = .error .reservedBits → step s = .refused .reservedBits) ∧
    (d = .error .spareBits → step s = .refused .reservedBits) ∧
    (d = .error .countTooLarge → step s = .refused .countTooLarge) ∧
    (∀ i rest, d = .ok (i, rest) → agentOf i ≠ a → step s = .refused .wrongAgent) ∧
    (∀ i rest, d = .ok (i, rest) → a = .sink → step s = .refused .wrongAgent)

/-- The agent each operation belongs to: the queries, CONSTRUCT and DESTROY to HOST, NOTIFY to CAPTURE, and TAKE,
PROCESS and ARM to WORKER; SINK has none (R7, R71). -/
def Obligations.OperationsHaveOneAgent : Prop :=
  ∀ (i : Instr),
    (agentOf i = .capture ↔ ∃ b, i = .notify b) ∧
    (agentOf i = .worker ↔ i = .take ∨ i = .process ∨ ∃ f, i = .arm f) ∧
    (agentOf i = .host ↔ (∃ e x, i = .matchEntry e x) ∨ (∃ x, i = .classify x) ∨ (∃ b, i = .decodeFrame b) ∨
      (∃ b, i = .decodeRepeat b) ∨ (∃ f c, i = .construct f c) ∨ ∃ f, i = .destroy f) ∧
    agentOf i ≠ .sink

/-! ### Whole-machine rules, over every step -/

/-- Power-on reset: every register the spec gives a reset value has it, and the parameters have their defaults
(R230). -/
def Obligations.ResetValues : Prop :=
  let s := State.reset
  s.ls = .unbuilt ∧ s.pa = false ∧ s.h = false ∧ s.cb = false ∧ s.rs.full = false ∧ s.lf.valid = false ∧ s.fm = 0 ∧
  s.eh = [] ∧ s.tr = [] ∧
  s.params.margin = 200 ∧ s.params.nom = ⟨⟨9000, 4500⟩, ⟨560, 560⟩, ⟨560, 1690⟩, ⟨9000, 2250⟩⟩ ∧
  s.params.maxSymbols = 64 ∧ s.params.durW = 16 ∧ s.params.oneShot = true

/-- The invariant holds at reset. -/
def Obligations.InvariantAtReset : Prop := Invariant State.reset

/-- Every step keeps the invariant: the buffers keep their MAX_SYMBOLS slots, durations of DUR_W bits and legal counts; handle, callback and
armed bit go with the loop state; WORKER in WAIT is never starved, and with ONE_SHOT nothing is delivered while it
holds a batch; the last event carries the last-known frame. -/
def Obligations.StepKeepsInvariant : Prop :=
  ∀ s t : State, Invariant s → step s = .next t → Invariant t

/-- No step makes a read the spec calls a model fault: none of an unspecified field (R39), none past a batch's count
(R51). -/
def Obligations.NoStepReadsUnspecified : Prop :=
  ∀ (s : State) (f : Fault), Invariant s → step s ≠ .fault f

/-- A step publishes at most one event and takes none back; an event is published exactly by a PROCESS that records
PUBLISHED_FRAME, with repeat = false, or PUBLISHED_REPEAT, with repeat = true (R149). -/
def Obligations.EventsOnlyFromPublishedBatches : Prop :=
  ∀ s t : State, step s = .next t →
    t.eh = s.eh ∧ t.tr ≠ s.tr ++ [.disp .publishedFrame] ∧ t.tr ≠ s.tr ++ [.disp .publishedRepeat] ∨
    s.ls = .haveBatch ∧ t.ls = .rearmPending ∧ ∃ e, t.eh = s.eh ++ [e] ∧
      (e.isRepeat = false ∧ t.tr = s.tr ++ [.disp .publishedFrame] ∨
        e.isRepeat = true ∧ t.tr = s.tr ++ [.disp .publishedRepeat])

/-- LF changes only where PROCESS decodes a full frame in WB, to that frame, which is published too, and where CONSTRUCT
clears LF.valid (R154). -/
def Obligations.LastFrameWriters : Prop :=
  ∀ s t : State, step s = .next t →
    t.lf = s.lf ∨
    (s.ls = .haveBatch ∧ s.wb.count = 34 ∧ t.lf.valid = true ∧
      FrameDecodesTo s.params s.wb.sym (.frame ⟨t.lf.address, t.lf.command, false⟩) ∧
      t.eh = s.eh ++ [⟨t.lf.address, t.lf.command, false⟩] ∧ t.tr = s.tr ++ [.disp .publishedFrame]) ∨
    (s.ls = .unbuilt ∧ t.lf = { s.lf with valid := false })

/-- No step clears a bit of FM, and FM changes only on a step into FAULTED (R29, R204). -/
def Obligations.FaultBitsAreSticky : Prop :=
  ∀ s t : State, step s = .next t →
    (∀ i, s.fm.getLsbD i = true → t.fm.getLsbD i = true) ∧ (t.fm ≠ s.fm → t.ls = .faulted)

/-- The re-arm is unconditional: WORKER comes back to WAIT only by CONSTRUCT or ARM, in a step that makes a successful arm
call with CFG, and from REARM_PENDING only on a turn of WORKER; from REARM_PENDING it goes nowhere but to WAIT, FAULTED
or STOPPED, and its only enabled operation there is ARM (R148). The record of the call is the model's (log 8), and so is
the turn (log 1). -/
def Obligations.RearmIsUnconditional : Prop :=
  ∀ s t : State, step s = .next t →
    (t.ls = .wait → s.ls ≠ .wait →
      (s.ls = .unbuilt ∨ s.ls = .rearmPending) ∧ t.pa = true ∧ t.portLog = s.portLog ++ [.arm t.cfg .success]) ∧
    (s.ls = .rearmPending → t.ls = .wait →
      t.portLog = s.portLog ++ [.arm s.cfg .success] ∧ ∃ ts, s.io.turns = .worker :: ts) ∧
    (s.ls = .rearmPending → t.ls = .rearmPending ∨ t.ls = .wait ∨ t.ls = .faulted ∨ t.ls = .stopped) ∧
    (t.ls = .haveBatch → s.ls = .haveBatch ∨ (s.ls = .wait ∧ s.rs.full = true)) ∧
    (t.ls = .rearmPending → s.ls = .rearmPending ∨ s.ls = .haveBatch) ∧
    (∀ i, s.ls = .rearmPending → agentOf i = .worker → enabled i s = true → ∃ f, i = .arm f)

/-- STOPPED is terminal: a step leaves every register but TR, to which it adds at most one Query record, and no delivery
lands (R151, R152). -/
def Obligations.StoppedIsTerminal : Prop :=
  ∀ s t : State, Invariant s → s.ls = .stopped → step s = .next t →
    registers t = { registers s with tr := t.tr } ∧ (t.tr = s.tr ∨ ∃ v, t.tr = s.tr ++ [.query v])

/-- In FAULTED no batch is processed and nothing is published: a step stays in FAULTED or stops, and leaves EH, LF, WB
(but for a DESTROY that succeeds) and CFG (R204, R205). -/
def Obligations.FaultedHaltsTheWorker : Prop :=
  ∀ s t : State, s.ls = .faulted → step s = .next t →
    (t.ls = .faulted ∨ t.ls = .stopped) ∧ t.eh = s.eh ∧ t.lf = s.lf ∧ t.cfg = s.cfg ∧ (t.ls = .faulted → t.wb = s.wb)

/-- The parameters are never written, and CFG only by CONSTRUCT, which leaves UNBUILT (R25, R35, R60). -/
def Obligations.ConfigurationWriters : Prop :=
  ∀ s t : State, step s = .next t →
    t.params = s.params ∧ (t.cfg ≠ s.cfg → s.ls = .unbuilt ∧ t.ls ≠ .unbuilt) ∧ (t.ls = .unbuilt → s.ls = .unbuilt)

/-- RS keeps a waiting batch until it is taken, overwritten or discarded: a step from a full relay leaves RS alone, or
is the TAKE into HAVE_BATCH, or leaves an Overwrite record, or stops or builds the core (R57, R172, R38). -/
def Obligations.RelayKeepsTheBatch : Prop :=
  ∀ s t : State, s.rs.full = true → step s = .next t →
    t.rs = s.rs ∨
    (s.ls = .wait ∧ t.ls = .haveBatch ∧ t.rs = { s.rs with full := false } ∧ t.wb.count = s.rs.batch.count) ∨
    (t.rs.full = true ∧ t.tr = s.tr ++ [.overwrite]) ∨
    (t.rs.full = false ∧ (t.ls = .stopped ∨ s.ls = .unbuilt))

/-- With ONE_SHOT no delivered batch is ever overwritten: a step from a full relay leaves RS as it is or empties it, and
no step leaves an Overwrite record (R58, R176). -/
def Obligations.OneShotNeverOverwrites : Prop :=
  ∀ s t : State, Invariant s → s.params.oneShot = true → step s = .next t →
    t.tr ≠ s.tr ++ [.overwrite] ∧ (s.rs.full = true → t.rs = s.rs ∨ t.rs = { s.rs with full := false })

/-- What each context may write: on CAPTURE's turn only RS, PA and TR; on WORKER's turn neither H, CB nor CFG, and of
RS only full; on HOST's turn EH is unchanged, and of LF only valid can change; on SINK's turn nothing (R210). That CAPTURE
writes the model-only TR (R172, R31), and that HOST clears LF.valid (R141), is R210 read with the operations' own rules
(log 18, DEDUCED). -/
def Obligations.ContextsAreIsolated : Prop :=
  ∀ (s t : State) (ts : List Agent), step s = .next t →
    (s.io.turns = .capture :: ts → registers t = { registers s with rs := t.rs, pa := t.pa, tr := t.tr }) ∧
    (s.io.turns = .worker :: ts →
      t.h = s.h ∧ t.cb = s.cb ∧ t.cfg = s.cfg ∧ t.rs.batch = s.rs.batch ∧ (t.rs.full = true → s.rs.full = true)) ∧
    (s.io.turns = .host :: ts →
      t.eh = s.eh ∧ t.lf.address = s.lf.address ∧ t.lf.command = s.lf.command ∧ t.rs.batch = s.rs.batch) ∧
    (s.io.turns = .sink :: ts → registers t = registers s)

/-- The calls made to the Pulse Capture Source, as the model records them (log 8). CONSTRUCT in UNBUILT makes the arm call
with the CFG word it stores, ARM in REARM_PENDING with CFG, and DESTROY with a handle the disable call, without a handle
none; no other operation makes a call. So a step makes at most one; every arm presents the CFG then in the register, and
its answer is what PA becomes; a disable is made only with a handle (R142, R150, R151). -/
def Obligations.PortCallsPresentConfig : Prop :=
  (∀ (f : Answer) (c : Word) (s : State), s.ls = .unbuilt →
    ∃ t, exec (.construct f c) s = .next t ∧ t.cfg = c ∧ t.portLog = s.portLog ++ [.arm c f]) ∧
  (∀ (f : Answer) (s : State), s.ls = .rearmPending →
    ∃ t, exec (.arm f) s = .next t ∧ t.portLog = s.portLog ++ [.arm s.cfg f]) ∧
  (∀ (f : Answer) (s : State), s.ls = .wait ∨ s.ls = .haveBatch ∨ s.ls = .rearmPending ∨ s.ls = .faulted →
    ∃ t, exec (.destroy f) s = .next t ∧
      t.portLog = if s.h then s.portLog ++ [.disable f] else s.portLog) ∧
  (∀ (i : Instr) (s t : State), exec i s = .next t →
    (∀ f c, i ≠ .construct f c) → (∀ f, i ≠ .arm f) → (∀ f, i ≠ .destroy f) → t.portLog = s.portLog) ∧
  (∀ s t : State, step s = .next t →
    t.portLog = s.portLog ∨
    (∃ f, t.portLog = s.portLog ++ [.arm t.cfg f] ∧ (t.pa = true ↔ f = .success) ∧ (t.ls = .wait ∨ t.ls = .faulted)) ∨
    (∃ f, t.portLog = s.portLog ++ [.disable f] ∧ s.h = true ∧ (t.h = false ↔ f = .success)))
end

