-- ==== Sys2Proof/Laws/Decode.lean ====
section
/-! SUPPORT. The encoding's small lemmas: the fields of a built operation word, the code maps, and what the word
readers answer. -/

namespace Sys2Proof

/-! ### Code maps -/

@[simp] theorem opOfCode_codeOfOp (op : Op) : opOfCode (codeOfOp op) = some op := by cases op <;> rfl

theorem codeOfOp_of_opOfCode {c : BitVec 4} {op : Op} (h : opOfCode c = some op) : codeOfOp op = c := by
  revert c op; decide

@[simp] theorem entryOfSel_selOfEntry (e : TimingEntry) : entryOfSel (selOfEntry e) = e := by cases e <;> rfl

@[simp] theorem selOfEntry_entryOfSel (v : BitVec 2) : selOfEntry (entryOfSel v) = v := by revert v; decide

@[simp] theorem answerOfBit_bitOfAnswer (f : Answer) : answerOfBit (bitOfAnswer f) = f := by cases f <;> rfl

@[simp] theorem bitOfAnswer_answerOfBit (v : BitVec 1) : bitOfAnswer (answerOfBit v) = v := by revert v; decide

/-! ### Numbers and their words -/

@[simp] theorem wordsOfNat_length (k n : Nat) : (wordsOfNat k n).length = k := by
  induction k generalizing n with
  | zero => rfl
  | succ k ih => simp [wordsOfNat, ih]

theorem natOfWords_wordsOfNat {k n : Nat} (h : n < 2 ^ (32 * k)) : natOfWords (wordsOfNat k n) = n := by
  induction k generalizing n with
  | zero => simp at h; simp [wordsOfNat, natOfWords, h]
  | succ k ih =>
    have : n / 2 ^ 32 < 2 ^ (32 * k) := by
      rw [Nat.div_lt_iff_lt_mul (by norm_num), ← Nat.pow_add]
      exact h
    simp only [wordsOfNat, natOfWords, ih this, BitVec.toNat_ofNat]
    omega

theorem wordsOfNat_natOfWords (ws : List Word) : wordsOfNat ws.length (natOfWords ws) = ws := by
  induction ws with
  | nil => rfl
  | cons w ws ih =>
    have := w.isLt
    have h1 : (w.toNat + 2 ^ 32 * natOfWords ws) / 2 ^ 32 = natOfWords ws := by omega
    simp only [wordsOfNat, natOfWords, List.length_cons, h1, ih]
    congr 1
    apply BitVec.eq_of_toNat_eq
    simp only [BitVec.toNat_ofNat]
    omega

/-! ### SYM words (R77) -/

/-- The words of one SYM hold its 2 * DUR_W bits. -/
theorem two_mul_le_wordsPerSym (durW : Nat) : 2 * durW ≤ 32 * wordsPerSym durW := by
  unfold wordsPerSym; omega

theorem symbolFits_iff {durW : Nat} {x : Symbol} :
    symbolFits durW x = true ↔ x.dh < 2 ^ durW ∧ x.dl < 2 ^ durW := by
  simp [symbolFits]

@[simp] theorem wordsOfSym_length (durW : Nat) (x : Symbol) : (wordsOfSym durW x).length = wordsPerSym durW := by
  simp [wordsOfSym]

theorem symOfWords_wordsOfSym {durW : Nat} {x : Symbol} (h : symbolFits durW x = true) :
    symOfWords durW (wordsOfSym durW x) = some x := by
  obtain ⟨h1, h2⟩ := symbolFits_iff.1 h
  have hn : x.dh + 2 ^ durW * x.dl < 2 ^ (2 * durW) := by
    rw [Nat.two_mul, Nat.pow_add]
    calc x.dh + 2 ^ durW * x.dl < 2 ^ durW + 2 ^ durW * x.dl := Nat.add_lt_add_right h1 _
      _ = 2 ^ durW * (x.dl + 1) := by ring
      _ ≤ 2 ^ durW * 2 ^ durW := Nat.mul_le_mul_left _ h2
  have hw : natOfWords (wordsOfSym durW x) = x.dh + 2 ^ durW * x.dl :=
    natOfWords_wordsOfNat (hn.trans_le (Nat.pow_le_pow_right (by norm_num) (two_mul_le_wordsPerSym durW)))
  have h3 : (x.dh + 2 ^ durW * x.dl) / 2 ^ durW = x.dl := by
    rw [Nat.add_mul_div_left _ _ (by positivity), Nat.div_eq_of_lt h1, Nat.zero_add]
  rw [symOfWords, hw, if_pos hn, Nat.add_mul_mod_self_left, Nat.mod_eq_of_lt h1, h3]

/-- What words that carry a symbol are: the words of one that fits. -/
theorem symOfWords_eq_some {durW : Nat} {ws : List Word} {x : Symbol} (h : symOfWords durW ws = some x)
    (hl : ws.length = wordsPerSym durW) : symbolFits durW x = true ∧ ws = wordsOfSym durW x := by
  unfold symOfWords at h
  split at h
  · rename_i hn
    cases h
    refine ⟨symbolFits_iff.2 ⟨Nat.mod_lt _ (by positivity), ?_⟩, ?_⟩
    · rw [Nat.div_lt_iff_lt_mul (by positivity), ← Nat.pow_add, ← Nat.two_mul]
      exact hn
    · have : natOfWords ws % 2 ^ durW + 2 ^ durW * (natOfWords ws / 2 ^ durW) = natOfWords ws := Nat.mod_add_div _ _
      rw [wordsOfSym, this, ← hl, wordsOfNat_natOfWords]
  · cases h

/-- At DUR_W = 16 every 32-bit word is a SYM word (R77). -/
theorem symOfWords_sixteen (w : Word) :
    symOfWords 16 [w] = some ⟨w.toNat % 2 ^ 16, w.toNat / 2 ^ 16⟩ := by
  have := w.isLt
  simp [symOfWords, natOfWords, this]

@[simp] theorem wordsOfSyms_length (durW : Nat) (b : List Symbol) :
    (wordsOfSyms durW b).length = b.length * wordsPerSym durW := by
  induction b with
  | nil => simp [wordsOfSyms]
  | cons x b ih =>
    simp only [wordsOfSyms, List.flatMap_cons, List.length_append, wordsOfSym_length, List.length_cons] at ih ⊢
    rw [ih]; ring

theorem symsOfWords_wordsOfSyms {durW : Nat} {b : List Symbol} (h : b.all (symbolFits durW) = true) :
    symsOfWords durW b.length (wordsOfSyms durW b) = some b := by
  induction b with
  | nil => rfl
  | cons x b ih =>
    simp only [List.all_cons, Bool.and_eq_true] at h
    have h1 : (wordsOfSyms durW (x :: b)).take (wordsPerSym durW) = wordsOfSym durW x := by
      simp [wordsOfSyms]
    have h2 : (wordsOfSyms durW (x :: b)).drop (wordsPerSym durW) = wordsOfSyms durW b := by
      simp [wordsOfSyms]
    simp only [symsOfWords, List.length_cons, h1, h2, symOfWords_wordsOfSym h.1, ih h.2]

/-- What words that carry n symbols are: the words of n symbols that fit. -/
theorem symsOfWords_eq_some {durW n : Nat} {ws : List Word} {b : List Symbol} (h : symsOfWords durW n ws = some b)
    (hl : ws.length = n * wordsPerSym durW) :
    b.length = n ∧ b.all (symbolFits durW) = true ∧ ws = wordsOfSyms durW b := by
  induction n generalizing ws b with
  | zero =>
    cases h
    have : ws = [] := List.length_eq_zero_iff.1 (by simpa using hl)
    simp [this, wordsOfSyms]
  | succ n ih =>
    simp only [symsOfWords] at h
    split at h
    · rename_i x b' hx hb
      cases h
      have hle : wordsPerSym durW ≤ ws.length := by rw [hl, Nat.succ_mul]; omega
      obtain ⟨h1, h2⟩ := symOfWords_eq_some hx (by simp [hle])
      obtain ⟨h3, h4, h5⟩ := ih hb (by rw [List.length_drop, hl, Nat.succ_mul]; omega)
      refine ⟨by simp [h3], by simp [h1, h4], ?_⟩
      rw [← List.take_append_drop (wordsPerSym durW) ws, h2, h5]
      simp [wordsOfSyms]
    · cases h

/-- At DUR_W = 16 every list of n words carries n symbols (R77). -/
theorem symsOfWords_sixteen (ws : List Word) : ∃ b, symsOfWords 16 ws.length ws = some b := by
  induction ws with
  | nil => exact ⟨[], rfl⟩
  | cons w ws ih =>
    obtain ⟨b, hb⟩ := ih
    exact ⟨_ :: b, by
      simp only [symsOfWords, List.length_cons, show wordsPerSym 16 = 1 from rfl, List.take_succ_cons, List.take_zero,
        List.drop_succ_cons, List.drop_zero, hb, symOfWords_sixteen]; rfl⟩

/-! ### The fields of an operation word -/

section Fields
variable (op : Op) (sel : BitVec 2) (count : BitVec 7) (f : BitVec 1)

@[simp] theorem opField_opWord : opField (opWord op sel count f) = codeOfOp op := by
  ext i hi; simp [opField, opWord]; grind

@[simp] theorem selField_opWord : selField (opWord op sel count f) = sel := by
  ext i hi; simp [selField, opWord]; grind

@[simp] theorem reservedLow_opWord : reservedLow (opWord op sel count f) = 0 := by
  ext i hi; simp [reservedLow, opWord]; grind

@[simp] theorem countField_opWord : countField (opWord op sel count f) = count := by
  ext i hi; simp [countField, opWord]; grind

@[simp] theorem answerField_opWord : answerField (opWord op sel count f) = f := by
  ext i hi; simp [answerField, opWord]; grind

@[simp] theorem reservedHigh_opWord : reservedHigh (opWord op sel count f) = 0 := by
  ext i hi; simp [reservedHigh, opWord]; grind

end Fields

/-- A word is its fields (R70). -/
theorem eq_opWord {w : Word} {op : Op} (hop : opField w = codeOfOp op) (hlo : reservedLow w = 0)
    (hhi : reservedHigh w = 0) : w = opWord op (selField w) (countField w) (answerField w) := by
  simp only [opWord, ← hop, ← hlo, ← hhi]
  ext i hi
  simp [opField, reservedLow, reservedHigh, selField, countField, answerField]
  grind

/-! ### The word readers -/

theorem readWords_eq_some {n : Nat} {ws : List Word} {r : List Word × List Word} (h : readWords n ws = some r) :
    ws = r.1 ++ r.2 ∧ r.1.length = n := by
  induction n generalizing ws r with
  | zero => cases h; simp
  | succ n ih =>
    cases ws with
    | nil => cases h
    | cons w ws =>
      simp only [readWords, Option.map_eq_some_iff] at h
      obtain ⟨q, hq, rfl⟩ := h
      obtain ⟨h1, h2⟩ := ih hq
      exact ⟨by simp [← h1], by simp [h2]⟩

theorem readWords_append (xs ws : List Word) : readWords xs.length (xs ++ ws) = some (xs, ws) := by
  induction xs with
  | nil => rfl
  | cons x xs ih => simp [readWords, ih]

theorem countOf_toNat {b : List Symbol} (h : b.length < 128) : (countOf b).toNat = b.length := by
  simp [countOf]
  omega

/-! ### The instruction's own words -/

theorem batchOk_iff {p : Config.Params} {b : List Symbol} :
    batchOk p b = true ↔ b.length ≤ p.maxSymbols ∧ b.length < 128 ∧ b.all (symbolFits p.durW) = true := by
  simp [batchOk, batchFits, and_assoc]

/-- COUNT of the operation word of an instruction that fits says how many operand words follow (R80). -/
theorem operandWords_headerWord {p : Config.Params} {i : Instr} (h : wellFormed p i = true) :
    operandWords p.durW (opOf i) (headerWord i) = (operandsOf p.durW i).length := by
  cases i <;> simp_all [operandWords, opOf, headerWord, operandsOf, wellFormed, batchOk_iff, countOf_toNat]

/-- The operation word and the operand words of a well-formed instruction are read back as it. -/
theorem instrOf_headerWord {p : Config.Params} {i : Instr} (h : wellFormed p i = true) :
    instrOf p.durW (opOf i) (headerWord i) (operandsOf p.durW i) = some i := by
  cases i <;> simp_all [instrOf, opOf, headerWord, operandsOf, wellFormed, batchOk_iff, countOf_toNat,
    symOfWords_wordsOfSym, symsOfWords_wordsOfSyms]

@[simp] theorem opField_headerWord (i : Instr) : opField (headerWord i) = codeOfOp (opOf i) := by
  cases i <;> simp [headerWord, opOf]

theorem reservedNonzero_headerWord (i : Instr) : reservedNonzero (opOf i) (headerWord i) = false := by
  cases i <;> simp [headerWord, opOf, reservedNonzero, usesSel, usesCount, usesAnswer]

/-! ### The header check (R84) -/

theorem reservedNonzero_eq_false {op : Op} {w : Word} (h : reservedNonzero op w = false) :
    reservedLow w = 0 ∧ reservedHigh w = 0 ∧ (usesSel op = false → selField w = 0) ∧
    (usesCount op = false → countField w = 0) ∧ (usesAnswer op = false → answerField w = 0) := by
  simp only [reservedNonzero, Bool.or_eq_false_iff, Bool.and_eq_false_iff, decide_eq_false_iff_not, not_not,
    Bool.not_eq_eq_eq_not, Bool.not_false] at h
  obtain ⟨⟨⟨⟨h1, h2⟩, h3⟩, h4⟩, h5⟩ := h
  refine ⟨h1, h2, fun h => ?_, fun h => ?_, fun h => ?_⟩ <;> simp_all

theorem checkHeader_headerWord {p : Config.Params} {i : Instr} (h : wellFormed p i = true) :
    checkHeader p.maxSymbols (headerWord i) = .ok (opOf i) := by
  have hc : (countField (headerWord i)).toNat ≤ p.maxSymbols := by
    cases i <;> simp_all [headerWord, wellFormed, batchOk_iff, countOf_toNat]
  simp only [checkHeader, opField_headerWord, opOfCode_codeOfOp, reservedNonzero_headerWord, Bool.false_eq_true,
    if_false]
  exact if_neg (by omega)

/-- What a word that passes the checks of R84 is. -/
theorem checkHeader_ok {m : Nat} {w : Word} {op : Op} (h : checkHeader m w = .ok op) :
    w = opWord op (selField w) (countField w) (answerField w) ∧ (usesSel op = false → selField w = 0) ∧
    (usesCount op = false → countField w = 0) ∧ (usesAnswer op = false → answerField w = 0) ∧
    (countField w).toNat ≤ m := by
  unfold checkHeader at h
  cases hop : opOfCode (opField w) with
  | none => simp [hop] at h
  | some op' =>
    simp only [hop] at h
    cases hr : reservedNonzero op' w with
    | true => simp [hr] at h
    | false =>
      by_cases hm : m < (countField w).toNat
      · simp [hr, hm] at h
      · simp only [hr, hm, if_false, Bool.false_eq_true, Except.ok.injEq] at h
        subst h
        obtain ⟨h1, h2, h3, h4, h5⟩ := reservedNonzero_eq_false hr
        exact ⟨eq_opWord (codeOfOp_of_opOfCode hop).symm h1 h2, h3, h4, h5, by omega⟩

end Sys2Proof
end

