-- ==== Sys2Proof/Laws/State.lean ====
section
/-! SUPPORT. One lemma per field of State per shared update, true by rfl, so that no later proof unfolds a record
update. -/

namespace Sys2Proof.Machine

variable (s : State)

/-! ### trace -/

@[simp] theorem trace_ls (t : TraceRecord) : (trace t s).ls = s.ls := rfl
@[simp] theorem trace_pa (t : TraceRecord) : (trace t s).pa = s.pa := rfl
@[simp] theorem trace_h (t : TraceRecord) : (trace t s).h = s.h := rfl
@[simp] theorem trace_cb (t : TraceRecord) : (trace t s).cb = s.cb := rfl
@[simp] theorem trace_cfg (t : TraceRecord) : (trace t s).cfg = s.cfg := rfl
@[simp] theorem trace_rs (t : TraceRecord) : (trace t s).rs = s.rs := rfl
@[simp] theorem trace_wb (t : TraceRecord) : (trace t s).wb = s.wb := rfl
@[simp] theorem trace_lf (t : TraceRecord) : (trace t s).lf = s.lf := rfl
@[simp] theorem trace_fm (t : TraceRecord) : (trace t s).fm = s.fm := rfl
@[simp] theorem trace_eh (t : TraceRecord) : (trace t s).eh = s.eh := rfl
@[simp] theorem trace_tr (t : TraceRecord) : (trace t s).tr = s.tr ++ [t] := rfl
@[simp] theorem trace_params (t : TraceRecord) : (trace t s).params = s.params := rfl
@[simp] theorem trace_portLog (t : TraceRecord) : (trace t s).portLog = s.portLog := rfl
@[simp] theorem trace_draws (t : TraceRecord) : (trace t s).draws = s.draws := rfl
@[simp] theorem trace_io (t : TraceRecord) : (trace t s).io = s.io := rfl

/-! ### publish -/

@[simp] theorem publish_ls (e : IrCommand) : (publish e s).ls = s.ls := rfl
@[simp] theorem publish_pa (e : IrCommand) : (publish e s).pa = s.pa := rfl
@[simp] theorem publish_h (e : IrCommand) : (publish e s).h = s.h := rfl
@[simp] theorem publish_cb (e : IrCommand) : (publish e s).cb = s.cb := rfl
@[simp] theorem publish_cfg (e : IrCommand) : (publish e s).cfg = s.cfg := rfl
@[simp] theorem publish_rs (e : IrCommand) : (publish e s).rs = s.rs := rfl
@[simp] theorem publish_wb (e : IrCommand) : (publish e s).wb = s.wb := rfl
@[simp] theorem publish_lf (e : IrCommand) : (publish e s).lf = s.lf := rfl
@[simp] theorem publish_fm (e : IrCommand) : (publish e s).fm = s.fm := rfl
@[simp] theorem publish_eh (e : IrCommand) : (publish e s).eh = s.eh ++ [e] := rfl
@[simp] theorem publish_tr (e : IrCommand) : (publish e s).tr = s.tr := rfl
@[simp] theorem publish_params (e : IrCommand) : (publish e s).params = s.params := rfl
@[simp] theorem publish_portLog (e : IrCommand) : (publish e s).portLog = s.portLog := rfl
@[simp] theorem publish_draws (e : IrCommand) : (publish e s).draws = s.draws := rfl
@[simp] theorem publish_io (e : IrCommand) : (publish e s).io = s.io := rfl

/-! ### raiseFault -/

@[simp] theorem raiseFault_ls (k : PeripheralFault) : (raiseFault k s).ls = .faulted := rfl
@[simp] theorem raiseFault_pa (k : PeripheralFault) : (raiseFault k s).pa = s.pa := rfl
@[simp] theorem raiseFault_h (k : PeripheralFault) : (raiseFault k s).h = s.h := rfl
@[simp] theorem raiseFault_cb (k : PeripheralFault) : (raiseFault k s).cb = s.cb := rfl
@[simp] theorem raiseFault_cfg (k : PeripheralFault) : (raiseFault k s).cfg = s.cfg := rfl
@[simp] theorem raiseFault_rs (k : PeripheralFault) : (raiseFault k s).rs = s.rs := rfl
@[simp] theorem raiseFault_wb (k : PeripheralFault) : (raiseFault k s).wb = s.wb := rfl
@[simp] theorem raiseFault_lf (k : PeripheralFault) : (raiseFault k s).lf = s.lf := rfl
@[simp] theorem raiseFault_fm (k : PeripheralFault) : (raiseFault k s).fm = setFaultBit k s.fm := rfl
@[simp] theorem raiseFault_eh (k : PeripheralFault) : (raiseFault k s).eh = s.eh := rfl
@[simp] theorem raiseFault_tr (k : PeripheralFault) : (raiseFault k s).tr = s.tr := rfl
@[simp] theorem raiseFault_params (k : PeripheralFault) : (raiseFault k s).params = s.params := rfl
@[simp] theorem raiseFault_portLog (k : PeripheralFault) : (raiseFault k s).portLog = s.portLog := rfl
@[simp] theorem raiseFault_draws (k : PeripheralFault) : (raiseFault k s).draws = s.draws := rfl
@[simp] theorem raiseFault_io (k : PeripheralFault) : (raiseFault k s).io = s.io := rfl

/-! ### terminate -/

@[simp] theorem terminate_ls : (terminate s).ls = .stopped := rfl
@[simp] theorem terminate_pa : (terminate s).pa = s.pa := rfl
@[simp] theorem terminate_h : (terminate s).h = s.h := rfl
@[simp] theorem terminate_cb : (terminate s).cb = s.cb := rfl
@[simp] theorem terminate_cfg : (terminate s).cfg = s.cfg := rfl
@[simp] theorem terminate_rs : (terminate s).rs = s.rs := rfl
@[simp] theorem terminate_wb : (terminate s).wb = s.wb := rfl
@[simp] theorem terminate_lf : (terminate s).lf = s.lf := rfl
@[simp] theorem terminate_fm : (terminate s).fm = s.fm := rfl
@[simp] theorem terminate_eh : (terminate s).eh = s.eh := rfl
@[simp] theorem terminate_tr : (terminate s).tr = s.tr := rfl
@[simp] theorem terminate_params : (terminate s).params = s.params := rfl
@[simp] theorem terminate_portLog : (terminate s).portLog = s.portLog := rfl
@[simp] theorem terminate_draws : (terminate s).draws = s.draws := rfl
@[simp] theorem terminate_io : (terminate s).io = s.io := rfl

/-! ### armPort -/

@[simp] theorem armPort_ls (c : Word) (f : Answer) : (armPort c f s).ls = s.ls := rfl
@[simp] theorem armPort_pa (c : Word) (f : Answer) : (armPort c f s).pa = decide (f = .success) := rfl
@[simp] theorem armPort_h (c : Word) (f : Answer) : (armPort c f s).h = s.h := rfl
@[simp] theorem armPort_cb (c : Word) (f : Answer) : (armPort c f s).cb = s.cb := rfl
@[simp] theorem armPort_cfg (c : Word) (f : Answer) : (armPort c f s).cfg = s.cfg := rfl
@[simp] theorem armPort_rs (c : Word) (f : Answer) : (armPort c f s).rs = s.rs := rfl
@[simp] theorem armPort_wb (c : Word) (f : Answer) : (armPort c f s).wb = s.wb := rfl
@[simp] theorem armPort_lf (c : Word) (f : Answer) : (armPort c f s).lf = s.lf := rfl
@[simp] theorem armPort_fm (c : Word) (f : Answer) : (armPort c f s).fm = s.fm := rfl
@[simp] theorem armPort_eh (c : Word) (f : Answer) : (armPort c f s).eh = s.eh := rfl
@[simp] theorem armPort_tr (c : Word) (f : Answer) : (armPort c f s).tr = s.tr := rfl
@[simp] theorem armPort_params (c : Word) (f : Answer) : (armPort c f s).params = s.params := rfl
@[simp] theorem armPort_portLog (c : Word) (f : Answer) : (armPort c f s).portLog = s.portLog ++ [.arm c f] := rfl
@[simp] theorem armPort_draws (c : Word) (f : Answer) : (armPort c f s).draws = s.draws := rfl
@[simp] theorem armPort_io (c : Word) (f : Answer) : (armPort c f s).io = s.io := rfl

/-! ### discardWork -/

@[simp] theorem discardWork_ls : (discardWork s).ls = s.ls := rfl
@[simp] theorem discardWork_pa : (discardWork s).pa = s.pa := rfl
@[simp] theorem discardWork_h : (discardWork s).h = s.h := rfl
@[simp] theorem discardWork_cb : (discardWork s).cb = s.cb := rfl
@[simp] theorem discardWork_cfg : (discardWork s).cfg = s.cfg := rfl
@[simp] theorem discardWork_rs : (discardWork s).rs = s.rs := rfl
@[simp] theorem discardWork_wb :
    (discardWork s).wb =
      { count := Config.freeCount s.draws, sym := freeSymbols s.params.durW s.draws 0 s.params.maxSymbols } := rfl
@[simp] theorem discardWork_lf : (discardWork s).lf = s.lf := rfl
@[simp] theorem discardWork_fm : (discardWork s).fm = s.fm := rfl
@[simp] theorem discardWork_eh : (discardWork s).eh = s.eh := rfl
@[simp] theorem discardWork_tr : (discardWork s).tr = s.tr := rfl
@[simp] theorem discardWork_params : (discardWork s).params = s.params := rfl
@[simp] theorem discardWork_portLog : (discardWork s).portLog = s.portLog := rfl
@[simp] theorem discardWork_draws : (discardWork s).draws = s.draws + 1 := rfl
@[simp] theorem discardWork_io : (discardWork s).io = s.io := rfl

/-! ### emptyRelay -/

@[simp] theorem emptyRelay_ls : (emptyRelay s).ls = s.ls := rfl
@[simp] theorem emptyRelay_pa : (emptyRelay s).pa = s.pa := rfl
@[simp] theorem emptyRelay_h : (emptyRelay s).h = s.h := rfl
@[simp] theorem emptyRelay_cb : (emptyRelay s).cb = s.cb := rfl
@[simp] theorem emptyRelay_cfg : (emptyRelay s).cfg = s.cfg := rfl
@[simp] theorem emptyRelay_rs : (emptyRelay s).rs = { s.rs with full := false } := rfl
@[simp] theorem emptyRelay_wb : (emptyRelay s).wb = s.wb := rfl
@[simp] theorem emptyRelay_lf : (emptyRelay s).lf = s.lf := rfl
@[simp] theorem emptyRelay_fm : (emptyRelay s).fm = s.fm := rfl
@[simp] theorem emptyRelay_eh : (emptyRelay s).eh = s.eh := rfl
@[simp] theorem emptyRelay_tr : (emptyRelay s).tr = s.tr := rfl
@[simp] theorem emptyRelay_params : (emptyRelay s).params = s.params := rfl
@[simp] theorem emptyRelay_portLog : (emptyRelay s).portLog = s.portLog := rfl
@[simp] theorem emptyRelay_draws : (emptyRelay s).draws = s.draws := rfl
@[simp] theorem emptyRelay_io : (emptyRelay s).io = s.io := rfl

/-! ### putRelay -/

@[simp] theorem putRelay_ls (b : Batch) : (putRelay b s).ls = s.ls := rfl
@[simp] theorem putRelay_pa (b : Batch) : (putRelay b s).pa = s.pa := rfl
@[simp] theorem putRelay_h (b : Batch) : (putRelay b s).h = s.h := rfl
@[simp] theorem putRelay_cb (b : Batch) : (putRelay b s).cb = s.cb := rfl
@[simp] theorem putRelay_cfg (b : Batch) : (putRelay b s).cfg = s.cfg := rfl
@[simp] theorem putRelay_rs (b : Batch) :
    (putRelay b s).rs =
      { full := true, batch := { count := b.count, sym := b.sym ++ freeSymbols s.params.durW s.draws b.sym.length s.params.maxSymbols } } := rfl
@[simp] theorem putRelay_wb (b : Batch) : (putRelay b s).wb = s.wb := rfl
@[simp] theorem putRelay_lf (b : Batch) : (putRelay b s).lf = s.lf := rfl
@[simp] theorem putRelay_fm (b : Batch) : (putRelay b s).fm = s.fm := rfl
@[simp] theorem putRelay_eh (b : Batch) : (putRelay b s).eh = s.eh := rfl
@[simp] theorem putRelay_tr (b : Batch) : (putRelay b s).tr = s.tr := rfl
@[simp] theorem putRelay_params (b : Batch) : (putRelay b s).params = s.params := rfl
@[simp] theorem putRelay_portLog (b : Batch) : (putRelay b s).portLog = s.portLog := rfl
@[simp] theorem putRelay_draws (b : Batch) : (putRelay b s).draws = s.draws + 1 := rfl
@[simp] theorem putRelay_io (b : Batch) : (putRelay b s).io = s.io := rfl

/-! ### copyToWork -/

@[simp] theorem copyToWork_ls (b : Batch) : (copyToWork b s).ls = s.ls := rfl
@[simp] theorem copyToWork_pa (b : Batch) : (copyToWork b s).pa = s.pa := rfl
@[simp] theorem copyToWork_h (b : Batch) : (copyToWork b s).h = s.h := rfl
@[simp] theorem copyToWork_cb (b : Batch) : (copyToWork b s).cb = s.cb := rfl
@[simp] theorem copyToWork_cfg (b : Batch) : (copyToWork b s).cfg = s.cfg := rfl
@[simp] theorem copyToWork_rs (b : Batch) : (copyToWork b s).rs = s.rs := rfl
@[simp] theorem copyToWork_wb (b : Batch) :
    (copyToWork b s).wb =
      { count := b.count, sym := b.sym.take b.count.toNat ++ s.wb.sym.drop b.count.toNat } := rfl
@[simp] theorem copyToWork_lf (b : Batch) : (copyToWork b s).lf = s.lf := rfl
@[simp] theorem copyToWork_fm (b : Batch) : (copyToWork b s).fm = s.fm := rfl
@[simp] theorem copyToWork_eh (b : Batch) : (copyToWork b s).eh = s.eh := rfl
@[simp] theorem copyToWork_tr (b : Batch) : (copyToWork b s).tr = s.tr := rfl
@[simp] theorem copyToWork_params (b : Batch) : (copyToWork b s).params = s.params := rfl
@[simp] theorem copyToWork_portLog (b : Batch) : (copyToWork b s).portLog = s.portLog := rfl
@[simp] theorem copyToWork_draws (b : Batch) : (copyToWork b s).draws = s.draws := rfl
@[simp] theorem copyToWork_io (b : Batch) : (copyToWork b s).io = s.io := rfl

/-! ### rememberFrame -/

@[simp] theorem rememberFrame_ls (a c : BitVec 16) : (rememberFrame a c s).ls = s.ls := rfl
@[simp] theorem rememberFrame_pa (a c : BitVec 16) : (rememberFrame a c s).pa = s.pa := rfl
@[simp] theorem rememberFrame_h (a c : BitVec 16) : (rememberFrame a c s).h = s.h := rfl
@[simp] theorem rememberFrame_cb (a c : BitVec 16) : (rememberFrame a c s).cb = s.cb := rfl
@[simp] theorem rememberFrame_cfg (a c : BitVec 16) : (rememberFrame a c s).cfg = s.cfg := rfl
@[simp] theorem rememberFrame_rs (a c : BitVec 16) : (rememberFrame a c s).rs = s.rs := rfl
@[simp] theorem rememberFrame_wb (a c : BitVec 16) : (rememberFrame a c s).wb = s.wb := rfl
@[simp] theorem rememberFrame_lf (a c : BitVec 16) :
    (rememberFrame a c s).lf =
      { valid := true, address := a, command := c } := rfl
@[simp] theorem rememberFrame_fm (a c : BitVec 16) : (rememberFrame a c s).fm = s.fm := rfl
@[simp] theorem rememberFrame_eh (a c : BitVec 16) : (rememberFrame a c s).eh = s.eh := rfl
@[simp] theorem rememberFrame_tr (a c : BitVec 16) : (rememberFrame a c s).tr = s.tr := rfl
@[simp] theorem rememberFrame_params (a c : BitVec 16) : (rememberFrame a c s).params = s.params := rfl
@[simp] theorem rememberFrame_portLog (a c : BitVec 16) : (rememberFrame a c s).portLog = s.portLog := rfl
@[simp] theorem rememberFrame_draws (a c : BitVec 16) : (rememberFrame a c s).draws = s.draws := rfl
@[simp] theorem rememberFrame_io (a c : BitVec 16) : (rememberFrame a c s).io = s.io := rfl

/-! ### forgetFrame -/

@[simp] theorem forgetFrame_ls : (forgetFrame s).ls = s.ls := rfl
@[simp] theorem forgetFrame_pa : (forgetFrame s).pa = s.pa := rfl
@[simp] theorem forgetFrame_h : (forgetFrame s).h = s.h := rfl
@[simp] theorem forgetFrame_cb : (forgetFrame s).cb = s.cb := rfl
@[simp] theorem forgetFrame_cfg : (forgetFrame s).cfg = s.cfg := rfl
@[simp] theorem forgetFrame_rs : (forgetFrame s).rs = s.rs := rfl
@[simp] theorem forgetFrame_wb : (forgetFrame s).wb = s.wb := rfl
@[simp] theorem forgetFrame_lf : (forgetFrame s).lf = { s.lf with valid := false } := rfl
@[simp] theorem forgetFrame_fm : (forgetFrame s).fm = s.fm := rfl
@[simp] theorem forgetFrame_eh : (forgetFrame s).eh = s.eh := rfl
@[simp] theorem forgetFrame_tr : (forgetFrame s).tr = s.tr := rfl
@[simp] theorem forgetFrame_params : (forgetFrame s).params = s.params := rfl
@[simp] theorem forgetFrame_portLog : (forgetFrame s).portLog = s.portLog := rfl
@[simp] theorem forgetFrame_draws : (forgetFrame s).draws = s.draws := rfl
@[simp] theorem forgetFrame_io : (forgetFrame s).io = s.io := rfl

/-! ### passTurn -/

@[simp] theorem passTurn_ls : (passTurn s).ls = s.ls := rfl
@[simp] theorem passTurn_pa : (passTurn s).pa = s.pa := rfl
@[simp] theorem passTurn_h : (passTurn s).h = s.h := rfl
@[simp] theorem passTurn_cb : (passTurn s).cb = s.cb := rfl
@[simp] theorem passTurn_cfg : (passTurn s).cfg = s.cfg := rfl
@[simp] theorem passTurn_rs : (passTurn s).rs = s.rs := rfl
@[simp] theorem passTurn_wb : (passTurn s).wb = s.wb := rfl
@[simp] theorem passTurn_lf : (passTurn s).lf = s.lf := rfl
@[simp] theorem passTurn_fm : (passTurn s).fm = s.fm := rfl
@[simp] theorem passTurn_eh : (passTurn s).eh = s.eh := rfl
@[simp] theorem passTurn_tr : (passTurn s).tr = s.tr := rfl
@[simp] theorem passTurn_params : (passTurn s).params = s.params := rfl
@[simp] theorem passTurn_portLog : (passTurn s).portLog = s.portLog := rfl
@[simp] theorem passTurn_draws : (passTurn s).draws = s.draws := rfl
@[simp] theorem passTurn_io : (passTurn s).io = { s.io with turns := s.io.turns.tail } := rfl

/-! ### consume -/

@[simp] theorem consume_ls (a : Agent) (ws : List Word) : (consume a ws s).ls = s.ls := rfl
@[simp] theorem consume_pa (a : Agent) (ws : List Word) : (consume a ws s).pa = s.pa := rfl
@[simp] theorem consume_h (a : Agent) (ws : List Word) : (consume a ws s).h = s.h := rfl
@[simp] theorem consume_cb (a : Agent) (ws : List Word) : (consume a ws s).cb = s.cb := rfl
@[simp] theorem consume_cfg (a : Agent) (ws : List Word) : (consume a ws s).cfg = s.cfg := rfl
@[simp] theorem consume_rs (a : Agent) (ws : List Word) : (consume a ws s).rs = s.rs := rfl
@[simp] theorem consume_wb (a : Agent) (ws : List Word) : (consume a ws s).wb = s.wb := rfl
@[simp] theorem consume_lf (a : Agent) (ws : List Word) : (consume a ws s).lf = s.lf := rfl
@[simp] theorem consume_fm (a : Agent) (ws : List Word) : (consume a ws s).fm = s.fm := rfl
@[simp] theorem consume_eh (a : Agent) (ws : List Word) : (consume a ws s).eh = s.eh := rfl
@[simp] theorem consume_tr (a : Agent) (ws : List Word) : (consume a ws s).tr = s.tr := rfl
@[simp] theorem consume_params (a : Agent) (ws : List Word) : (consume a ws s).params = s.params := rfl
@[simp] theorem consume_portLog (a : Agent) (ws : List Word) : (consume a ws s).portLog = s.portLog := rfl
@[simp] theorem consume_draws (a : Agent) (ws : List Word) : (consume a ws s).draws = s.draws := rfl
@[simp] theorem consume_io (a : Agent) (ws : List Word) :
    (consume a ws s).io =
      withStream { s.io with turns := s.io.turns.tail } a ws := rfl

/-! ### The view of the spec's registers -/

@[simp] theorem registers_ls : (registers s).ls = s.ls := rfl
@[simp] theorem registers_pa : (registers s).pa = s.pa := rfl
@[simp] theorem registers_h : (registers s).h = s.h := rfl
@[simp] theorem registers_cb : (registers s).cb = s.cb := rfl
@[simp] theorem registers_cfg : (registers s).cfg = s.cfg := rfl
@[simp] theorem registers_rs : (registers s).rs = s.rs := rfl
@[simp] theorem registers_wb : (registers s).wb = s.wb := rfl
@[simp] theorem registers_lf : (registers s).lf = s.lf := rfl
@[simp] theorem registers_fm : (registers s).fm = s.fm := rfl
@[simp] theorem registers_eh : (registers s).eh = s.eh := rfl
@[simp] theorem registers_tr : (registers s).tr = s.tr := rfl
@[simp] theorem registers_passTurn : registers (passTurn s) = registers s := rfl
@[simp] theorem registers_consume (a : Agent) (ws : List Word) : registers (consume a ws s) = registers s := rfl

end Sys2Proof.Machine
end

