-- ==== Sys2Proof/Laws/Ops.lean ====
section
/-! SUPPORT. One lemma for each shared operation that says everything it can do; later proofs cite these. -/

namespace Sys2Proof.Machine

/-! ### Guarded reads -/

theorem symRead_ok {b : Batch} {i : Nat} {x : Symbol} (hi : i < b.count.toNat) (hx : b.sym[i]? = some x) :
    symRead b i = .ok x := by
  simp [symRead, hi, hx]

theorem symRead_cases (b : Batch) (i : Nat) :
    (∃ x, symRead b i = .ok x ∧ i < b.count.toNat ∧ b.sym[i]? = some x) ∨ symRead b i = .error .outOfBatchRead := by
  unfold symRead
  split
  · cases h : b.sym[i]? with
    | none => exact .inr rfl
    | some x => exact .inl ⟨x, rfl, ‹_›, rfl⟩
  · exact .inr rfl

theorem readRelay_ok {s : State} (h : s.rs.full = true) : readRelay s = .ok s.rs.batch := by simp [readRelay, h]

theorem readWork_ok {s : State} (h : s.ls = .haveBatch) : readWork s = .ok s.wb := by simp [readWork, h]

theorem readLast_ok {s : State} (h : s.lf.valid = true) : readLast s = .ok s.lf := by simp [readLast, h]

theorem readCfg_ok {s : State} (h : s.ls ≠ .unbuilt) : readCfg s = .ok s.cfg := by simp [readCfg, h]

/-! ### Buffers -/

@[simp] theorem freeSymbols_length (durW draw lo hi : Nat) : (freeSymbols durW draw lo hi).length = hi - lo := by
  simp [freeSymbols]

/-- A free symbol is a symbol of DUR_W bits. -/
theorem freeSymbols_fit {durW draw lo hi : Nat} {x : Symbol} (h : x ∈ freeSymbols durW draw lo hi) :
    symbolFits durW x = true := by
  simp only [freeSymbols, List.mem_map] at h
  obtain ⟨k, -, rfl⟩ := h
  exact symbolFits_iff.2 ⟨Nat.mod_lt _ (by positivity), Nat.mod_lt _ (by positivity)⟩

@[simp] theorem operandBatch_sym (b : List Symbol) : (operandBatch b).sym = b := rfl

theorem operandBatch_count {m : Nat} {b : List Symbol} (h : batchFits m b.length = true) :
    (operandBatch b).count.toNat = b.length ∧ b.length ≤ m := by
  simp only [batchFits, Bool.and_eq_true, decide_eq_true_eq] at h
  exact ⟨countOf_toNat h.2, h.1⟩

theorem withBatch_fits {b : List Symbol} {s : State} (k : Batch → Result)
    (h : batchFits s.params.maxSymbols b.length = true) : withBatch b s k = k (operandBatch b) := by
  simp [withBatch, h]

theorem withBatch_next {b : List Symbol} {s t : State} {k : Batch → Result} (h : withBatch b s k = .next t) :
    batchFits s.params.maxSymbols b.length = true ∧ k (operandBatch b) = .next t := by
  unfold withBatch at h
  split at h
  · exact ⟨‹_›, h⟩
  · cases h

/-! ### The classifier -/

theorem inWindow_iff (margin d n : Nat) :
    inWindow margin d n = true ↔ (n : Int) - margin < d ∧ (d : Int) < n + margin := by
  simp [inWindow]

theorem symMatches_iff (p : Config.Params) (x : Symbol) (e : TimingEntry) :
    symMatches p x e = true ↔ InsideEntry p x e := by
  simp [symMatches, inWindow_iff, InsideEntry, and_assoc]

theorem classifyBit_bit1_iff (p : Config.Params) (x : Symbol) : classifyBit p x = .bit1 ↔ IsBit p x true := by
  simp only [classifyBit, IsBit, ← symMatches_iff]
  cases symMatches p x .zero <;> cases symMatches p x .one <;> simp

theorem classifyBit_bit0_iff (p : Config.Params) (x : Symbol) : classifyBit p x = .bit0 ↔ IsBit p x false := by
  simp only [classifyBit, IsBit, ← symMatches_iff]
  cases symMatches p x .zero <;> cases symMatches p x .one <;> simp

theorem classifyBit_none_iff (p : Config.Params) (x : Symbol) : classifyBit p x = .none ↔ IsNoBit p x := by
  simp only [classifyBit, IsNoBit, ← symMatches_iff]
  cases symMatches p x .zero <;> cases symMatches p x .one <;> simp

/-! ### Ports and faults -/

theorem disablePort_success (s : State) :
    disablePort .success s =
      { s with pa := false, cb := false, h := false, portLog := s.portLog ++ [.disable .success] } := rfl

theorem disablePort_failure (s : State) :
    disablePort .failure s = { s with portLog := s.portLog ++ [.disable .failure] } := rfl

/-- Every bit of FM that was set stays set, and the fault's own bit is set (R29, R204). -/
theorem setFaultBit_getLsbD (k : PeripheralFault) (fm : BitVec 3) (i : Nat) (hi : i < 3) :
    (setFaultBit k fm).getLsbD i = (fm.getLsbD i || decide (i = faultBit k)) := by
  have : i = 0 ∨ i = 1 ∨ i = 2 := by omega
  revert fm
  rcases this with rfl | rfl | rfl <;> cases k <;> decide

@[simp] theorem setFaultBit_ne_zero (k : PeripheralFault) (fm : BitVec 3) : setFaultBit k fm ≠ 0#3 := by
  revert fm; cases k <;> decide

/-! ### The codec -/

/-- The bit loop reads no symbol past the buffer where all its indices are inside. -/
theorem assembleBits_ok {p : Config.Params} {b : Batch} {base : Nat} {is : List Nat} (acc : BitVec 16)
    (h : ∀ i ∈ is, base + i < b.count.toNat ∧ base + i < b.sym.length) :
    ∃ r, assembleBits p b base is acc = .ok r := by
  induction is generalizing acc with
  | nil => exact ⟨_, rfl⟩
  | cons i is ih =>
    obtain ⟨h1, h2⟩ := h i (by simp)
    have hx : symRead b (base + i) = .ok b.sym[base + i] := symRead_ok h1 (List.getElem?_eq_getElem h2)
    have ih' := fun acc => ih acc fun j hj => h j (by simp [hj])
    simp only [assembleBits, hx]
    split
    · exact ⟨_, rfl⟩
    · exact ih' _
    · exact ih' _

theorem decodeFrame_ok {b : Batch} (p : Config.Params) (h : b.count.toNat ≤ b.sym.length) :
    ∃ o, decodeFrame p b = .ok o := by
  unfold decodeFrame
  split
  · exact ⟨_, rfl⟩
  · rename_i hc
    have hc : b.count.toNat = 34 := by simpa using hc
    have hx : symRead b 0 = .ok (b.sym[0]'(by omega)) := symRead_ok (by omega) (List.getElem?_eq_getElem _)
    simp only [hx]
    split
    · obtain ⟨r1, h1⟩ := assembleBits_ok (p := p) (b := b) (base := 1) (is := List.range Config.addrBits) 0#16
        (by simp [Config.addrBits]; omega)
      obtain ⟨r2, h2⟩ := assembleBits_ok (p := p) (b := b) (base := 17) (is := List.range Config.cmdBits) 0#16
        (by simp [Config.cmdBits]; omega)
      cases r1 <;> cases r2 <;> simp only [decodePayload, h1, h2] <;> exact ⟨_, rfl⟩
    · exact ⟨_, rfl⟩

theorem decodeRepeat_ok {b : Batch} (p : Config.Params) (h : b.count.toNat ≤ b.sym.length) :
    ∃ o, decodeRepeat p b = .ok o := by
  unfold decodeRepeat
  split
  · exact ⟨_, rfl⟩
  · rename_i hc
    have hc : b.count.toNat = 2 := by simpa using hc
    have hx : symRead b 0 = .ok (b.sym[0]'(by omega)) := symRead_ok (by omega) (List.getElem?_eq_getElem _)
    simp only [hx]
    split <;> exact ⟨_, rfl⟩

end Sys2Proof.Machine
end

