-- ==== Sys2Proof/Laws/Exec.lean ====
section
/-! SUPPORT. What each meaning, and a whole step, can do where it answers a next state: one inversion lemma each, so
that a whole-machine proof unfolds no meaning. -/

namespace Sys2Proof.Machine

variable {s t : State}

/-! ### The updates of the meanings, field by field -/

theorem deliver_eq (b : Batch) (s : State) :
    deliver b s =
      { s with
        rs := { full := true
                batch := { count := b.count
                           sym := b.sym ++ freeSymbols s.params.durW s.draws b.sym.length s.params.maxSymbols } }
        pa := s.pa && !s.params.oneShot
        tr := if s.rs.full then s.tr ++ [.overwrite] else s.tr
        draws := s.draws + 1 } := by
  obtain ⟨ls, pa, h, cb, cfg, ⟨full, batch⟩, wb, lf, fm, eh, tr, ⟨margin, nom, maxSymbols, durW, oneShot⟩, portLog, draws, io⟩ := s
  cases full <;> cases oneShot <;> simp [deliver, endWindow, traceOverwrite, putRelay, trace]

theorem takeBatch_eq (b : Batch) (s : State) :
    takeBatch b s =
      { s with
        ls := .haveBatch
        wb := { count := b.count, sym := b.sym.take b.count.toNat ++ s.wb.sym.drop b.count.toNat }
        rs := { s.rs with full := false } } := rfl

theorem finishProcess_eq (s : State) :
    finishProcess s =
      { s with
        ls := .rearmPending
        wb := { count := Config.freeCount s.draws, sym := freeSymbols s.params.durW s.draws 0 s.params.maxSymbols }
        draws := s.draws + 1 } := rfl

theorem construct_success (c : Word) (s : State) :
    construct .success c s =
      { s with
        cfg := c, rs := { s.rs with full := false }, lf := { s.lf with valid := false }
        cb := true, h := true, pa := true, ls := .wait, portLog := s.portLog ++ [.arm c .success] } := rfl

theorem construct_failure (c : Word) (s : State) :
    construct .failure c s =
      { s with
        cfg := c, rs := { s.rs with full := false }, lf := { s.lf with valid := false }
        cb := false, h := false, pa := false, ls := .faulted, fm := setFaultBit .startup s.fm
        portLog := s.portLog ++ [.arm c .failure] } := rfl

theorem rearm_success (c : Word) (s : State) :
    rearm .success c s = { s with pa := true, ls := .wait, portLog := s.portLog ++ [.arm c .success] } := rfl

theorem rearm_failure (c : Word) (s : State) :
    rearm .failure c s =
      { s with
        pa := false, ls := .faulted, fm := setFaultBit .rearm s.fm
        portLog := s.portLog ++ [.arm c .failure] } := rfl

theorem teardown_success (s : State) :
    teardown .success s =
      { s with
        pa := false, cb := false, h := false, rs := { s.rs with full := false }, ls := .stopped
        wb := { count := Config.freeCount s.draws, sym := freeSymbols s.params.durW s.draws 0 s.params.maxSymbols }
        draws := s.draws + 1, portLog := s.portLog ++ [.disable .success] } := rfl

theorem teardown_failure (s : State) :
    teardown .failure s =
      { s with
        ls := .faulted, fm := setFaultBit .teardown s.fm, portLog := s.portLog ++ [.disable .failure] } := rfl

theorem abandon_eq (s : State) :
    abandon s = { s with pa := false, cb := false, rs := { s.rs with full := false }, ls := .stopped } := rfl

/-! ### Queries -/

theorem execDecodeFrame_next {b : List Symbol} (h : execDecodeFrame b s = .next t) :
    batchFits s.params.maxSymbols b.length = true ∧
    ∃ o, decodeFrame s.params (operandBatch b) = .ok o ∧ t = trace (.query (.frameOutcome o)) s := by
  obtain ⟨hf, h⟩ := withBatch_next h
  refine ⟨hf, ?_⟩
  split at h
  · cases h
  · cases h; exact ⟨_, ‹_›, rfl⟩

theorem execDecodeRepeat_next {b : List Symbol} (h : execDecodeRepeat b s = .next t) :
    batchFits s.params.maxSymbols b.length = true ∧
    ∃ o, decodeRepeat s.params (operandBatch b) = .ok o ∧ t = trace (.query (.repeatOutcome o)) s := by
  obtain ⟨hf, h⟩ := withBatch_next h
  refine ⟨hf, ?_⟩
  split at h
  · cases h
  · cases h; exact ⟨_, ‹_›, rfl⟩

/-! ### The loop -/

theorem execConstruct_next {f : Answer} {c : Word} (h : execConstruct f c s = .next t) :
    s.ls = .unbuilt ∧ t = construct f c s := by
  unfold execConstruct at h
  split at h
  · rename_i ha
    cases h; exact ⟨by simpa [constructAccepted] using ha, rfl⟩
  · cases h

/-- What the routing of a batch can do: publish a frame and remember it, publish a repeat of the remembered frame, or
only record a drop. -/
theorem routeBatch_cases {b : Batch} (h : routeBatch b s = .ok t) :
    (∃ fr, decodeFrame s.params b = .ok (.frame fr) ∧ b.count.toNat = 34 ∧
      t = trace (.disp .publishedFrame)
        (publish ⟨fr.address, fr.command, false⟩ (rememberFrame fr.address fr.command s))) ∨
    (decodeRepeat s.params b = .ok .isRepeat ∧ b.count.toNat = 2 ∧ s.lf.valid = true ∧
      t = trace (.disp .publishedRepeat) (publish ⟨s.lf.address, s.lf.command, true⟩ s)) ∨
    (∃ d, d ≠ .publishedFrame ∧ d ≠ .publishedRepeat ∧ t = trace (.disp d) s) := by
  unfold routeBatch at h
  split at h
  · unfold processFrame at h
    split at h
    · cases h
    · cases h; exact .inl ⟨_, ‹_›, ‹_›, rfl⟩
    · cases h
      refine .inr (.inr ⟨_, ?_, ?_, rfl⟩) <;> unfold invalidDisposition <;> split <;> simp
  · split at h
    · unfold processRepeat at h
      split at h
      · cases h
      · split at h
        · rename_i hv
          simp only [publishRepeat, readLast_ok hv] at h
          cases h; exact .inr (.inl ⟨‹_›, ‹_›, hv, rfl⟩)
        · cases h; exact .inr (.inr ⟨_, by simp, by simp, rfl⟩)
      · cases h; exact .inr (.inr ⟨_, by simp, by simp, rfl⟩)
    · cases h; exact .inr (.inr ⟨_, by simp, by simp, rfl⟩)

theorem execProcess_next (h : execProcess s = .next t) :
    (s.ls = .haveBatch ∧ ∃ s', routeBatch s.wb s = .ok s' ∧ t = finishProcess s') ∨ (s.ls ≠ .haveBatch ∧ t = s) := by
  unfold execProcess at h
  split at h
  · rename_i hls
    have hls : s.ls = .haveBatch := by simpa [processEnabled] using hls
    simp only [process, readWork_ok hls] at h
    cases hr : routeBatch s.wb s with
    | error f => rw [hr] at h; cases h
    | ok s' => rw [hr] at h; cases h; exact .inl ⟨hls, s', rfl, rfl⟩
  · rename_i hls
    cases h; exact .inr ⟨by simpa [processEnabled] using hls, rfl⟩

theorem execArm_next {f : Answer} (h : execArm f s = .next t) :
    (s.ls = .rearmPending ∧ t = rearm f s.cfg s) ∨ (s.ls ≠ .rearmPending ∧ t = s) := by
  unfold execArm at h
  split at h
  · rename_i hls
    have hls : s.ls = .rearmPending := by simpa [armEnabled] using hls
    rw [readCfg_ok (by simp [hls])] at h
    cases h; exact .inl ⟨hls, rfl⟩
  · rename_i hls
    cases h; exact .inr ⟨by simpa [armEnabled] using hls, rfl⟩

theorem destroyAccepted_iff : destroyAccepted s = true ↔ s.ls ≠ .unbuilt ∧ s.ls ≠ .stopped := by
  cases h : s.ls <;> simp [destroyAccepted, h]

theorem execDestroy_next {f : Answer} (h : execDestroy f s = .next t) :
    s.ls ≠ .unbuilt ∧ s.ls ≠ .stopped ∧ ((s.h = true ∧ t = teardown f s) ∨ (s.h = false ∧ t = abandon s)) := by
  unfold execDestroy at h
  split at h
  · rename_i ha
    obtain ⟨h1, h2⟩ := destroyAccepted_iff.1 ha
    refine ⟨h1, h2, ?_⟩
    cases h
    cases hh : s.h <;> simp
  · cases h

/-! ### The relay -/

theorem execNotify_next {b : List Symbol} (h : execNotify b s = .next t) :
    batchFits s.params.maxSymbols b.length = true ∧
    ((s.cb = true ∧ s.pa = true ∧ t = deliver (operandBatch b) s) ∨ (notifyEnabled s = false ∧ t = s)) := by
  obtain ⟨hf, h⟩ := withBatch_next h
  refine ⟨hf, ?_⟩
  split at h
  · rename_i he
    cases h
    simp only [notifyEnabled, Bool.and_eq_true] at he
    exact .inl ⟨he.1, he.2, rfl⟩
  · rename_i he
    cases h; exact .inr ⟨by simpa using he, rfl⟩

theorem execTake_next (h : execTake s = .next t) :
    (s.ls = .wait ∧ s.rs.full = true ∧ t = takeBatch s.rs.batch s) ∨ (takeEnabled s = false ∧ t = s) := by
  unfold execTake at h
  split at h
  · rename_i he
    simp only [takeEnabled, Bool.and_eq_true, decide_eq_true_eq] at he
    rw [readRelay_ok he.2] at h
    cases h; exact .inl ⟨he.1, he.2, rfl⟩
  · rename_i he
    cases h; exact .inr ⟨by simpa using he, rfl⟩

/-! ### Any operation -/

/-- Every next state of exec: the state unchanged where the operation waits, one Query record, or what the one operation
that was enabled does. -/
theorem exec_next {i : Instr} (h : exec i s = .next t) :
    t = s ∨ (∃ q, t = trace (.query q) s) ∨ (∃ f c, s.ls = .unbuilt ∧ t = construct f c s) ∨
    (s.ls = .haveBatch ∧ ∃ s', routeBatch s.wb s = .ok s' ∧ t = finishProcess s') ∨
    (∃ f, s.ls = .rearmPending ∧ t = rearm f s.cfg s) ∨
    (∃ f, s.ls ≠ .unbuilt ∧ s.ls ≠ .stopped ∧ s.h = true ∧ t = teardown f s) ∨
    (s.ls ≠ .unbuilt ∧ s.ls ≠ .stopped ∧ s.h = false ∧ t = abandon s) ∨
    (∃ b, i = .notify b ∧ batchFits s.params.maxSymbols b.length = true ∧ s.cb = true ∧ s.pa = true ∧
      t = deliver (operandBatch b) s) ∨
    (s.ls = .wait ∧ s.rs.full = true ∧ t = takeBatch s.rs.batch s) := by
  cases i with
  | matchEntry e x => cases h; exact .inr (.inl ⟨_, rfl⟩)
  | classify x => cases h; exact .inr (.inl ⟨_, rfl⟩)
  | decodeFrame b => obtain ⟨-, o, -, rfl⟩ := execDecodeFrame_next h; exact .inr (.inl ⟨_, rfl⟩)
  | decodeRepeat b => obtain ⟨-, o, -, rfl⟩ := execDecodeRepeat_next h; exact .inr (.inl ⟨_, rfl⟩)
  | construct f c => obtain ⟨h1, rfl⟩ := execConstruct_next h; exact .inr (.inr (.inl ⟨f, c, h1, rfl⟩))
  | process =>
    rcases execProcess_next h with h | ⟨-, rfl⟩
    · exact .inr (.inr (.inr (.inl h)))
    · exact .inl rfl
  | arm f =>
    rcases execArm_next h with ⟨h1, rfl⟩ | ⟨-, rfl⟩
    · exact .inr (.inr (.inr (.inr (.inl ⟨f, h1, rfl⟩))))
    · exact .inl rfl
  | destroy f =>
    obtain ⟨h1, h2, ⟨h3, rfl⟩ | ⟨h3, rfl⟩⟩ := execDestroy_next h
    · exact .inr (.inr (.inr (.inr (.inr (.inl ⟨f, h1, h2, h3, rfl⟩)))))
    · exact .inr (.inr (.inr (.inr (.inr (.inr (.inl ⟨h1, h2, h3, rfl⟩))))))
  | notify b =>
    obtain ⟨hf, ⟨h1, h2, rfl⟩ | ⟨-, rfl⟩⟩ := execNotify_next h
    · exact .inr (.inr (.inr (.inr (.inr (.inr (.inr (.inl ⟨b, rfl, hf, h1, h2, rfl⟩)))))))
    · exact .inl rfl
  | take =>
    rcases execTake_next h with ⟨h1, h2, rfl⟩ | ⟨-, rfl⟩
    · exact .inr (.inr (.inr (.inr (.inr (.inr (.inr (.inr ⟨h1, h2, rfl⟩)))))))
    · exact .inl rfl

/-! ### A step -/

theorem fetchFor_cases (a : Agent) (s : State) :
    fetchFor a s = .idle (passTurn s) ∨ (∃ r, fetchFor a s = .refuse r) ∨
    ∃ i rest, decode s.params (streamOf s.io a) = .ok (i, rest) ∧ agentOf i = a ∧ enabled i s = true ∧
      fetchFor a s = .run i (consume a rest s) := by
  unfold fetchFor
  cases h : decode s.params (streamOf s.io a) with
  | error e => cases hr : refusalOf e <;> simp [hr]
  | ok r =>
    by_cases ha : agentOf r.1 = a
    · cases he : enabled r.1 s
      · simp [ha, he]
      · exact .inr (.inr ⟨r.1, r.2, rfl, ha, he, by simp [ha, he]⟩)
    · simp [ha]

/-- A step passes a turn, or runs the operation an agent has issued. -/
theorem step_next (h : step s = .next t) :
    t = s ∨ t = passTurn s ∨
    ∃ a ts i rest, s.io.turns = a :: ts ∧ decode s.params (streamOf s.io a) = .ok (i, rest) ∧
      agentOf i = a ∧ enabled i s = true ∧ exec i (consume a rest s) = .next t := by
  unfold step fetch at h
  cases hts : s.io.turns with
  | nil => rw [hts] at h; cases h; exact .inl rfl
  | cons a ts =>
    rw [hts] at h
    rcases fetchFor_cases a s with hf | ⟨r, hf⟩ | ⟨i, rest, hd, ha, he, hf⟩ <;> simp only [hf] at h
    · cases h; exact .inr (.inl rfl)
    · cases h
    · exact .inr (.inr ⟨a, ts, i, rest, rfl, hd, ha, he, h⟩)

/-- Issuing an operation changes nothing its enabling condition reads. -/
theorem enabled_consume (i : Instr) (a : Agent) (ws : List Word) : enabled i (consume a ws s) = enabled i s := by
  cases i <;> rfl

end Sys2Proof.Machine
end

