-- ==== Sys2Proof/Laws/PerInstr.lean ====
section
/-! SUPPORT. Statements made per instruction (LAWS.json): the length of an operation is 1 + k words, k read from its
first word (spec 30_encoding.md R80). -/

namespace Sys2Proof.Laws.EncodeLength

def Statement (i : Instr) : Prop :=
  ∀ p, wellFormed p i = true → (encode p.durW i).length = 1 + operandWords p.durW (opOf i) (headerWord i)

theorem of_operands (i : Instr) : Statement i := fun _ h => by
  rw [operandWords_headerWord h, encode, List.length_cons, Nat.add_comm]

theorem matchEntry (e : TimingEntry) (x : Symbol) : Statement (.matchEntry e x) := of_operands _
theorem classify (x : Symbol) : Statement (.classify x) := of_operands _
theorem decodeFrame (b : List Symbol) : Statement (.decodeFrame b) := of_operands _
theorem decodeRepeat (b : List Symbol) : Statement (.decodeRepeat b) := of_operands _
theorem construct (f : Answer) (c : Word) : Statement (.construct f c) := of_operands _
theorem process : Statement .process := of_operands _
theorem arm (f : Answer) : Statement (.arm f) := of_operands _
theorem destroy (f : Answer) : Statement (.destroy f) := of_operands _
theorem notify (b : List Symbol) : Statement (.notify b) := of_operands _
theorem take : Statement .take := of_operands _

end Sys2Proof.Laws.EncodeLength
end

