-- ==== Sys2Proof/Tests/Slice0.lean ====
section
/-! SUPPORT. The model's own tests. Expected results come from the spec's test vectors (95_test_vectors.md) and worked
encodings (30_encoding.md R83), or from a rule by hand, as each section says. The witness theorems show that the
hypotheses of the statements of Certificates/Slice0/Obligations.lean can be met together. -/

namespace Sys2Proof.Tests.Slice0

open Sys2Proof.Machine

/-! ### Small states -/

/-- WAIT, armed: what CONSTRUCT 300, 12000 leaves (95_test_vectors.md 2.7). -/
def armed : State :=
  { State.reset with ls := .wait, pa := true, cb := true, h := true, cfg := cfgWord 300 12000 }

/-- A buffer of 64 slots that holds b. -/
def buffer (b : List Symbol) : Batch :=
  { count := countOf b, sym := b ++ List.replicate (64 - b.length) ⟨0, 0⟩ }

/-- WAIT with b in the relay. -/
def pending (b : List Symbol) : State := { armed with pa := false, rs := ⟨true, buffer b⟩ }

/-- HAVE_BATCH with b in the work buffer. -/
def held (b : List Symbol) : State := { armed with ls := .haveBatch, pa := false, wb := buffer b }

def rearming : State := { armed with ls := .rearmPending, pa := false }
def stopped : State := { armed with ls := .stopped, pa := false, cb := false, h := false }
def faulted : State := { armed with ls := .faulted, pa := false, fm := 0b010 }

def withMargin (m : Nat) (s : State) : State := { s with params := { s.params with margin := m } }
def manyShot (s : State) : State := { s with params := { s.params with oneShot := false } }

def nec (a c : BitVec 16) : List Symbol := necBatch Config.sourceTable a c defaultTail
def rep : List Symbol := repBatch Config.sourceTable defaultTail

/-- Agent a has the next turn and has issued the words ws. -/
def issuing (a : Agent) (ws : List Word) (s : State) : State :=
  { s with io := withStream { s.io with turns := [a] } a ws }

/-- The next state, where there is one. -/
def nextOf (r : Result) : Option State :=
  match r with
  | .next t => some t
  | _ => none

def refusalOfResult (r : Result) : Option Refusal :=
  match r with
  | .refused e => some e
  | _ => none

/-! ### WellFormed refuses -/

def tooMany : List Symbol := List.replicate 65 ⟨560, 560⟩

theorem test_wellFormed_decodeFrame_65 : wellFormed Config.defaults (.decodeFrame tooMany) = false := by decide
theorem test_wellFormed_decodeRepeat_65 : wellFormed Config.defaults (.decodeRepeat tooMany) = false := by decide
theorem test_wellFormed_notify_65 : wellFormed Config.defaults (.notify tooMany) = false := by decide
theorem test_wellFormed_notify_64 : wellFormed Config.defaults (.notify (tooMany.drop 1)) = true := by decide
theorem test_wellFormed_count_field :
    wellFormed { Config.defaults with maxSymbols := 200 } (.notify (List.replicate 128 ⟨0, 0⟩)) = false := by
  simp [wellFormed, batchOk, batchFits]
theorem test_wellFormed_match_duration : wellFormed Config.defaults (.matchEntry .lead ⟨65536, 0⟩) = false := by decide
theorem test_wellFormed_classify_duration : wellFormed Config.defaults (.classify ⟨0, 65536⟩) = false := by decide
theorem test_wellFormed_batch_duration : wellFormed Config.defaults (.notify [⟨560, 560⟩, ⟨65536, 0⟩]) = false := by
  decide
theorem test_wellFormed_wide_duration :
    wellFormed { Config.defaults with durW := 17 } (.matchEntry .lead ⟨65536, 0⟩) = true := by decide

/-! ### Decoding: words of 30_encoding.md R83 and 95_test_vectors.md sections 2.1 to 2.5 -/

theorem test_decode_match_lead :
    decode Config.defaults [0x00000001, 0x11942328] = .ok (.matchEntry .lead ⟨9000, 4500⟩, []) := by rfl
theorem test_decode_match_repeat :
    decode Config.defaults [0x00000031, 0x08CA2328] = .ok (.matchEntry .rep ⟨9000, 2250⟩, []) := by rfl
theorem test_decode_match_one :
    decode Config.defaults [0x00000021, 0x069A0230] = .ok (.matchEntry .one ⟨560, 1690⟩, []) := by rfl
theorem test_decode_match_zero :
    decode Config.defaults [0x00000011, 0xFFFFFFFF] = .ok (.matchEntry .zero ⟨65535, 65535⟩, []) := by rfl
theorem test_decode_classify :
    decode Config.defaults [0x00000002, 0x069A0230] = .ok (.classify ⟨560, 1690⟩, []) := by rfl
theorem test_decode_decodeFrame :
    decode Config.defaults [0x00000203, 0x08CA2328, 0x00000230] = .ok (.decodeFrame [⟨9000, 2250⟩, ⟨560, 0⟩], []) := by rfl
theorem test_decode_decodeFrame_empty : decode Config.defaults [0x00000003] = .ok (.decodeFrame [], []) := by rfl
theorem test_decode_decodeRepeat :
    decode Config.defaults [0x00000204, 0x09912261, 0x00010001] = .ok (.decodeRepeat [⟨8801, 2449⟩, ⟨1, 1⟩], []) := by rfl
theorem test_decode_construct :
    decode Config.defaults [0x00000005, 0x2EE0012C] = .ok (.construct .success (cfgWord 300 12000), []) := by rfl
theorem test_decode_construct_fails :
    decode Config.defaults [0x00008005, 0x2EE0012C] = .ok (.construct .failure (cfgWord 300 12000), []) := by rfl
theorem test_decode_process : decode Config.defaults [0x00000006] = .ok (.process, []) := by rfl
theorem test_decode_arm : decode Config.defaults [0x00000007] = .ok (.arm .success, []) := by rfl
theorem test_decode_arm_fails : decode Config.defaults [0x00008007] = .ok (.arm .failure, []) := by rfl
theorem test_decode_destroy : decode Config.defaults [0x00000008] = .ok (.destroy .success, []) := by rfl
theorem test_decode_destroy_fails : decode Config.defaults [0x00008008] = .ok (.destroy .failure, []) := by rfl
theorem test_decode_notify_leaves_rest :
    decode Config.defaults [0x00000209, 0x08CA2328, 0x00000230, 0x0000000A] =
      .ok (.notify [⟨9000, 2250⟩, ⟨560, 0⟩], [0x0000000A]) := by rfl
theorem test_decode_take : decode Config.defaults [0x0000000A] = .ok (.take, []) := by rfl

theorem test_illegalOp_0 : decode Config.defaults [0x00000000] = .error .illegalOp := by rfl
theorem test_illegalOp_B : decode Config.defaults [0x0000000B] = .error .illegalOp := by rfl
theorem test_illegalOp_F : decode Config.defaults [0x0000000F] = .error .illegalOp := by rfl
theorem test_reserved_match_count : decode Config.defaults [0x00000101] = .error .reservedBits := by rfl
theorem test_reserved_classify_sel : decode Config.defaults [0x00000012] = .error .reservedBits := by rfl
theorem test_reserved_process_f : decode Config.defaults [0x00008006] = .error .reservedBits := by rfl
theorem test_reserved_bit_16 : decode Config.defaults [0x00010001] = .error .reservedBits := by rfl
theorem test_reserved_bit_6 : decode Config.defaults [0x00000041] = .error .reservedBits := by rfl
theorem test_notify_64_accepted : checkHeader 64 0x00004009 = .ok .notify := by rfl
theorem test_notify_65_tooLarge : decode Config.defaults [0x00004109] = .error .countTooLarge := by rfl
theorem test_decodeFrame_127_tooLarge : decode Config.defaults [0x00007F03] = .error .countTooLarge := by rfl
/-- A DUR_W of 20 by hand: 40 bits, so two words (log 4). -/
theorem test_decode_wide_symbol :
    decode { Config.defaults with durW := 20 } [0x00000002, 0x00180001, 0x00000000] =
      .ok (.classify ⟨0x80001, 0x1⟩, []) := by rfl
theorem test_decode_spare_bits :
    decode { Config.defaults with durW := 8 } [0x00000002, 0x00010000] = .error .spareBits := by rfl
theorem test_decode_missing_operand : decode Config.defaults [0x00000002] = .error .truncated := by rfl

/-- The SYM words of NEC(0x00FF, 0x00A5) as 95_test_vectors.md section 3 lists them. -/
theorem test_encode_nec :
    encode 16 (notifyNec Config.sourceTable 0x00FF 0x00A5 defaultTail) =
      [0x00002209, 0x11942328] ++ List.replicate 8 0x069A0230 ++ List.replicate 8 0x02300230 ++
      [0x069A0230, 0x02300230, 0x069A0230, 0x02300230, 0x02300230, 0x069A0230, 0x02300230, 0x069A0230] ++
      List.replicate 8 0x02300230 ++ [0x00000230] := by rfl

theorem test_bytes_little_endian : bytesOfWord 0x11942328 = [0x28, 0x23, 0x94, 0x11] := by rfl
theorem test_evt_bytes : bytesOfEvt 0x1ABCD1234 = [0x34, 0x12, 0xCD, 0xAB, 0x01] := by rfl
theorem test_table_word : decodeTableWord 32 0x00000031 = some (.matchEntry .rep ⟨0, 0⟩) := by decide
theorem test_fetch_word_runs :
    fetch (State.reset.withFetchWord 32 0x00008005) = .run (.construct .failure 0) State.reset := by decide
theorem test_asm : asm (.construct .failure (cfgWord 300 12000)) = "CONSTRUCT.F 300, 12000" := by decide

/-! ### Codes: R21, R79, R85, R86, R87 by hand -/

theorem test_evt : evtOfCommand ⟨0x1234, 0xABCD, true⟩ = 0x1ABCD1234 := by rfl
theorem test_codes :
    codeOfLoopState .faulted = 5 ∧ codeOfBitClass .none = 2 ∧ codeOfReason .unexpectedSymbolCount = 3 ∧
    pairOfRepeat .isRepeat = (true, 0) ∧ tagOfOutcome (.invalid .invalidBit) = 1 ∧
    reasonCodeOfOutcome (.invalid .invalidBit) = 2 ∧ codeOfDisposition .dropRepeatNoPrior = 5 := by decide
theorem test_example_config_brackets : ConfigBrackets (cfgWord 300 12000) := by unfold ConfigBrackets; decide

/-! ### Classifier: 95_test_vectors.md 2.1, 2.2 -/

theorem test_match_inside :
    (nextOf (exec (.matchEntry .lead ⟨8801, 4699⟩) armed)).map State.tr = some [.query (.matched true)] := by decide
theorem test_match_boundary :
    (nextOf (exec (.matchEntry .lead ⟨8800, 4500⟩) armed)).map State.tr = some [.query (.matched false)] := by decide
theorem test_match_vacuous_bound : symMatches (withMargin 600 armed).params ⟨0, 0⟩ .zero = true := by decide
theorem test_classify_bit1 :
    (nextOf (exec (.classify ⟨560, 1889⟩) armed)).map State.tr = some [.query (.bitClass .bit1)] := by decide
theorem test_classify_ambiguous :
    (nextOf (exec (.classify ⟨560, 1100⟩) (withMargin 600 armed))).map State.tr =
      some [.query (.bitClass .none)] := by decide

/-! ### Codec: 95_test_vectors.md S2, S7, 2.3, 2.4 -/

theorem test_decodeFrame_lsb_first :
    (nextOf (exec (.decodeFrame (nec 0x1234 0xABCD)) armed)).map State.tr =
      some [.query (.frameOutcome (.frame ⟨0x1234, 0xABCD, false⟩))] := by rfl
theorem test_decodeFrame_last_bit_boundary :
    (nextOf (exec (.decodeFrame ((nec 0x00FF 0x00A5).set 32 ⟨560, 1890⟩)) armed)).map State.tr =
      some [.query (.frameOutcome (.invalid .invalidBit))] := by rfl
theorem test_decodeRepeat_inside :
    (nextOf (exec (.decodeRepeat [⟨8801, 2449⟩, ⟨1, 1⟩]) armed)).map State.tr =
      some [.query (.repeatOutcome .isRepeat)] := by decide
theorem test_decodeRepeat_one_symbol :
    (nextOf (exec (.decodeRepeat [⟨9000, 2250⟩]) armed)).map State.tr =
      some [.query (.repeatOutcome (.invalid .unexpectedSymbolCount))] := by decide

/-! ### Relay: 95_test_vectors.md 2.6 -/

theorem test_notify_fills :
    (nextOf (exec (.notify rep) armed)).map (fun t => (t.rs.full, t.rs.batch.count, t.rs.batch.sym.take 2, t.pa)) =
      some (true, 2, rep, false) := by rfl
theorem test_notify_overwrites :
    (nextOf (exec (.notify (nec 0x1234 0xABCD)) { manyShot (pending (nec 0x00FF 0x00A5)) with pa := true })).map
      (fun t => (t.rs.batch.sym.take 34, t.tr, t.pa)) = some (nec 0x1234 0xABCD, [.overwrite], true) := by rfl
theorem test_take_moves :
    (nextOf (exec .take (pending rep))).map (fun t => (t.wb.count, t.wb.sym.take 2, t.rs.full, t.ls)) =
      some (2, rep, false, .haveBatch) := by decide
theorem test_take_waits : nextOf (exec .take armed) = some armed := by decide

/-! ### Loop: 95_test_vectors.md 2.7 -/

theorem test_construct :
    (nextOf (exec (.construct .success 0x2EE0012C) State.reset)).map (fun t => (t.ls, t.pa, t.cb, t.h, t.cfg, t.fm)) =
      some (.wait, true, true, true, 0x2EE0012C, 0) := by decide
theorem test_construct_fails :
    (nextOf (exec (.construct .failure 0x2EE0012C) State.reset)).map (fun t => (t.ls, t.pa, t.cb, t.h, t.fm)) =
      some (.faulted, false, false, false, 0b001) := by decide
theorem test_process_frame :
    (nextOf (exec .process (held (nec 0x00FF 0x00A5)))).map (fun t => (t.ls, t.eh, t.lf, t.tr)) =
      some (.rearmPending, [⟨0x00FF, 0x00A5, false⟩], ⟨true, 0x00FF, 0x00A5⟩, [.disp .publishedFrame]) := by rfl
theorem test_process_repeat_without_frame :
    (nextOf (exec .process (held rep))).map (fun t => (t.ls, t.eh, t.tr)) =
      some (.rearmPending, [], [.disp .dropRepeatNoPrior]) := by rfl
theorem test_arm : (nextOf (exec (.arm .success) rearming)).map (fun t => (t.ls, t.pa)) = some (.wait, true) := by decide
theorem test_arm_fails :
    (nextOf (exec (.arm .failure) rearming)).map (fun t => (t.ls, t.pa, t.fm)) =
      some (.faulted, false, 0b010) := by decide
theorem test_destroy_fails_then_both_bits :
    (nextOf (exec (.destroy .failure) faulted)).map (fun t => (t.ls, t.fm, t.h)) =
      some (.faulted, 0b110, true) := by decide
theorem test_destroy_without_handle :
    (nextOf (exec (.destroy .failure) { faulted with h := false, cb := false, fm := 0b001 })).map
      (fun t => (t.ls, t.fm)) = some (.stopped, 0b001) := by decide

/-! ### Steps: 30_encoding.md R89, 95_test_vectors.md 2.5, 2.6 -/

theorem test_step_wrong_agent :
    refusalOfResult (step (issuing .worker [0x00000009] armed)) = some .wrongAgent := by decide
theorem test_step_sink_refused :
    refusalOfResult (step (issuing .sink [0x00000009] armed)) = some .wrongAgent := by decide
theorem test_step_notify_not_enabled :
    (nextOf (step (issuing .capture [0x00000009] { armed with pa := false }))).map (fun t => t.io) =
      some ⟨[], [], [0x00000009], [], []⟩ := by decide
theorem test_step_lifecycle :
    refusalOfResult (step (issuing .host [0x00000008] stopped)) = some .lifecycle := by decide

/-! ### Witnesses: the hypotheses of the statements can be met -/

theorem witness_DecodeOfEncode : wellFormed Config.defaults (.notify (List.replicate 64 ⟨560, 560⟩)) = true := by decide
theorem witness_DecodeOfEncode_wide :
    wellFormed { Config.defaults with durW := 17 } (.notify [⟨131071, 0⟩]) = true := by decide
theorem witness_EncodeOfDecode :
    decode Config.defaults [0x00000009, 0x0000000A] = .ok (.notify [], [0x0000000A]) := by rfl
theorem witness_LegalWordDecodesToItsRow :
    Config.defaults.durW = 16 ∧ decode Config.defaults [0x00000204, 0, 0] ≠ .error .illegalOp ∧
    decode Config.defaults [0x00000204, 0, 0] ≠ .error .reservedBits ∧
    decode Config.defaults [0x00000204, 0, 0] ≠ .error .countTooLarge := by
  refine ⟨rfl, ?_, ?_, ?_⟩ <;> exact fun h => by cases h
theorem witness_BitWindowsOverlapFrom566 :
    armed.params.nom = Config.sourceTable ∧ 566 ≤ (withMargin 566 armed).params.margin := by decide
theorem witness_DecodeFrameFollowsTheSymbols :
    (nec 0x00FF 0x00A5).length = 34 ∧ 34 ≤ armed.params.maxSymbols := by decide
theorem witness_FrameOutcomeIsUnique : (nec 0x00FF 0x00A5).length = 34 ∧ 34 ≤ armed.params.maxSymbols := by decide
theorem witness_DecodeFrameStopsAtFirstFailure_leading :
    (rep ++ rep)[0]? = some ⟨9000, 2250⟩ ∧ (rep ++ rep).take 1 = rep.take 1 ∧
    ¬ InsideEntry Config.defaults ⟨9000, 2250⟩ .lead := by
  refine ⟨by decide, by decide, ?_⟩
  simp [InsideEntry, nominal, Config.defaults, Config.sourceTable]
theorem witness_DecodeFrameStopsAtFirstFailure_lastBit :
    ((nec 0 0).set 32 ⟨0, 0⟩)[32]? = some ⟨0, 0⟩ ∧
    ((nec 0 0).set 32 ⟨0, 0⟩).take 33 = (((nec 0 0).set 32 ⟨0, 0⟩).set 33 ⟨1, 1⟩).take 33 ∧
    IsNoBit Config.defaults ⟨0, 0⟩ := by
  refine ⟨by decide, by decide, ?_⟩
  simp [IsNoBit, InsideEntry, nominal, Config.defaults, Config.sourceTable]
theorem witness_DecodeFrameNeedsThirtyFour :
    rep.length ≠ 34 ∧ batchFits armed.params.maxSymbols rep.length = true ∧ (33 : BitVec 7).toNat ≠ 34 := by decide
theorem witness_TailSymbolIsIgnored :
    (nec 0x00FF 0x00A5).length = 34 ∧
    (Batch.mk 34 (nec 0x00FF 0x00A5)).sym.take 33 = (Batch.mk 34 ((nec 0x00FF 0x00A5).take 33)).sym.take 33 := by decide
theorem witness_NominalFrameRoundTrip : Validated armed.params ∧ 34 ≤ armed.params.maxSymbols := by
  unfold Validated; decide
theorem witness_NominalFrameRoundTrip_edges :
    Validated (withMargin 1 armed).params ∧ Validated (withMargin 565 armed).params := by
  unfold Validated; decide

/-- The batch of S2 in 95_test_vectors.md: symbol 5 at a boundary of ONE or of the common high duration. -/
theorem witness_BoundaryBitFailsTheFrame :
    ((nec 0x00FF 0x00A5).set 5 ⟨560, 1490⟩).length = 34 ∧ armed.params.nom = Config.sourceTable ∧
    armed.params.margin ≤ 565 ∧ SlotIs ((nec 0x00FF 0x00A5).set 5 ⟨560, 1490⟩) 0
      (fun y => InsideEntry armed.params y .lead) ∧
    ((nec 0x00FF 0x00A5).set 5 ⟨560, 1490⟩)[5]? = some ⟨560, 1490⟩ ∧
    (1490#16).toNat + armed.params.margin = 1690 := by
  refine ⟨by decide, by decide, by decide, ⟨⟨9000, 4500⟩, by decide, ?_⟩, by decide, by decide⟩
  simp [InsideEntry, nominal, armed, State.reset, Config.defaults, Config.sourceTable]
theorem witness_DecodeRepeatReadsFirstOfTwo :
    batchFits armed.params.maxSymbols rep.length = true ∧ batchFits armed.params.maxSymbols 64 = true := by decide
theorem witness_NominalRepeatDecodes : Validated armed.params ∧ 2 ≤ armed.params.maxSymbols := by
  unfold Validated; decide
theorem witness_QueriesAreIdempotent : ∃ t, exec (.decodeFrame rep) armed = .next t := ⟨_, rfl⟩
theorem witness_ConstructBuildsOrFaults : State.reset.ls = .unbuilt := by decide
theorem witness_ProcessFullFrame :
    (held (nec 0x00FF 0x00A5)).ls = .haveBatch ∧ (held (nec 0x00FF 0x00A5)).wb.count = 34 ∧
    34 ≤ (held (nec 0x00FF 0x00A5)).wb.sym.length := by decide
theorem witness_ProcessRepeatBatch :
    (held rep).ls = .haveBatch ∧ (held rep).wb.count = 2 ∧ (held rep).wb.sym[0]? = some ⟨9000, 2250⟩ := by decide
theorem witness_ProcessRepeatBatch_clauses :
    InsideEntry (held rep).params ⟨9000, 2250⟩ .rep ∧ ¬ InsideEntry (held rep).params ⟨9200, 2250⟩ .rep ∧
    (held rep).lf.valid = false ∧ ({ held rep with lf := ⟨true, 1, 2⟩ } : State).lf.valid = true := by
  simp [InsideEntry, nominal, held, armed, State.reset, Config.defaults, Config.sourceTable]
theorem witness_ProcessIgnoresOtherCounts :
    (held [⟨9000, 2250⟩]).ls = .haveBatch ∧ (held [⟨9000, 2250⟩]).wb.count ≠ 34 ∧
    (held [⟨9000, 2250⟩]).wb.count ≠ 2 := by decide
theorem witness_DroppedBatchIsAbsorbed :
    (held rep).ls = .haveBatch ∧ ∃ t, exec .process (held rep) = .next t ∧ t.eh = (held rep).eh := ⟨rfl, _, rfl, rfl⟩
theorem witness_ArmRearmsOrFaults : rearming.ls = .rearmPending := by decide
theorem witness_DestroyStopsOrFaults :
    armed.ls = .wait ∧ armed.h = true ∧ (held rep).ls = .haveBatch ∧ faulted.ls = .faulted ∧
    ({ faulted with h := false } : State).h = false := by decide
theorem witness_NotifyFillsTheRelay :
    batchFits armed.params.maxSymbols rep.length = true ∧ armed.cb = true ∧ armed.pa = true ∧
    batchFits armed.params.maxSymbols 0 = true ∧ batchFits armed.params.maxSymbols 64 = true := by decide
theorem witness_TakeMovesTheBatch :
    (pending rep).ls = .wait ∧ (pending rep).rs.full = true ∧
    (pending rep).rs.batch.count.toNat ≤ (pending rep).rs.batch.sym.length := by decide
theorem witness_TakeLeavesHigherSlots : ∃ t, exec .take (pending rep) = .next t ∧
    (pending rep).rs.batch.count.toNat ≤ 2 := ⟨_, rfl, by decide⟩
theorem witness_NotEnabledChangesNothing :
    ¬ (armed.ls = .wait ∧ armed.rs.full = true) ∧ armed.ls ≠ .haveBatch ∧ armed.ls ≠ .rearmPending ∧
    ¬ (stopped.cb = true ∧ stopped.pa = true) ∧ batchFits stopped.params.maxSymbols rep.length = true := by decide
theorem witness_TakeReturnsWhatNotifyPut :
    ∃ s1 t, exec (.notify rep) armed = .next s1 ∧ s1.ls = .wait ∧ exec .take s1 = .next t := ⟨_, _, rfl, rfl, rfl⟩
theorem witness_ProcessIgnoresTheRelay : ∃ t, exec .process (held rep) = .next t := ⟨_, rfl⟩
theorem witness_StepRunsDecodedOperation :
    (issuing .worker [0x0000000A] (pending rep)).io.turns = [.worker] ∧
    decode Config.defaults (streamOf (issuing .worker [0x0000000A] (pending rep)).io .worker) = .ok (.take, []) ∧
    agentOf .take = .worker ∧ enabled .take (issuing .worker [0x0000000A] (pending rep)) = true :=
  ⟨rfl, rfl, rfl, rfl⟩
theorem witness_WaitingAgentKeepsItsOperation :
    decode Config.defaults (streamOf (issuing .worker [0x0000000A] armed).io .worker) = .ok (.take, []) ∧
    enabled .take (issuing .worker [0x0000000A] armed) = false ∧
    decode Config.defaults (streamOf (issuing .sink [] armed).io .sink) = .error .truncated ∧ armed.io.turns = [] :=
  ⟨rfl, rfl, rfl, rfl⟩
theorem witness_StepRefusesByName :
    (issuing .host [0] armed).io.turns = [.host] ∧
    decode Config.defaults (streamOf (issuing .host [0] armed).io .host) = .error .illegalOp ∧
    decode Config.defaults (streamOf (issuing .host [0x00000041] armed).io .host) = .error .reservedBits ∧
    decode Config.defaults (streamOf (issuing .host [0x00004109] armed).io .host) = .error .countTooLarge ∧
    decode Config.defaults (streamOf (issuing .host [0x0000000A] armed).io .host) = .ok (.take, []) ∧
    agentOf .take ≠ .host ∧
    decode Config.defaults (streamOf (issuing .sink [0x0000000A] armed).io .sink) = .ok (.take, []) :=
  ⟨rfl, rfl, rfl, rfl, rfl, by decide, rfl⟩
theorem witness_StepRefusesByName_spareBits :
    (fun s : State => decode s.params (streamOf s.io .host))
      (issuing .host [0x00000002, 0x00010000] { armed with params := { armed.params with durW := 8 } }) =
      .error .spareBits := rfl

/-- The armed core of 95_test_vectors.md 2.7 meets the invariant, whatever is scheduled. -/
theorem witness_invariant_armed (io : Schedule) : Invariant { armed with io := io } := by
  refine ⟨⟨?_, ?_, ?_, ?_, ?_, ?_⟩, ⟨?_, ?_, ?_, ?_, ?_⟩, ⟨?_, ?_, ?_⟩, ⟨?_, ?_, ?_⟩⟩ <;>
    simp [armed, State.reset, Batch.atReset, Config.defaults, inLoop, symbolFits]
theorem witness_invariant_pending (io : Schedule) : Invariant { pending rep with io := io } := by
  refine ⟨⟨?_, ?_, ?_, ?_, ?_, ?_⟩, ⟨?_, ?_, ?_, ?_, ?_⟩, ⟨?_, ?_, ?_⟩, ⟨?_, ?_, ?_⟩⟩ <;>
    simp [pending, buffer, rep, repBatch, nominalSymbol, defaultTail, Config.sourceTable, countOf, armed, State.reset,
      Batch.atReset, Config.defaults, inLoop, symbolFits]
theorem witness_StepKeepsInvariant :
    Invariant (issuing .capture [0x00000009] armed) ∧ ∃ t, step (issuing .capture [0x00000009] armed) = .next t :=
  ⟨witness_invariant_armed _, _, rfl⟩
theorem witness_NoStepReadsUnspecified : Invariant (issuing .capture [0x00000009] armed) :=
  witness_invariant_armed _
theorem witness_EventsOnlyFromPublishedBatches :
    ∃ t, step (issuing .worker [0x00000006] (held (nec 0x00FF 0x00A5))) = .next t ∧
      t.eh = [⟨0x00FF, 0x00A5, false⟩] := ⟨_, rfl, rfl⟩
theorem witness_LastFrameWriters :
    ∃ t, step (issuing .worker [0x00000006] (held (nec 0x00FF 0x00A5))) = .next t ∧
      t.lf = ⟨true, 0x00FF, 0x00A5⟩ := ⟨_, rfl, rfl⟩
theorem witness_FaultBitsAreSticky :
    ∃ t, step (issuing .host [0x00008008] faulted) = .next t ∧ faulted.fm.getLsbD 1 = true ∧ t.fm ≠ faulted.fm :=
  ⟨_, rfl, by decide, by decide⟩
theorem witness_RearmIsUnconditional :
    (∃ t, step (issuing .worker [0x00000007] rearming) = .next t ∧ t.ls = .wait ∧ rearming.ls ≠ .wait) ∧
    rearming.ls = .rearmPending ∧ agentOf (.arm .failure) = .worker ∧ enabled (.arm .failure) rearming = true :=
  ⟨⟨_, rfl, rfl, by decide⟩, rfl, rfl, rfl⟩
theorem witness_StoppedIsTerminal :
    Invariant (issuing .host [0x00000002, 0] stopped) ∧ stopped.ls = .stopped ∧
    ∃ t, step (issuing .host [0x00000002, 0] stopped) = .next t := by
  refine ⟨⟨⟨?_, ?_, ?_, ?_, ?_, ?_⟩, ⟨?_, ?_, ?_, ?_, ?_⟩, ⟨?_, ?_, ?_⟩, ⟨?_, ?_, ?_⟩⟩, rfl, _, rfl⟩ <;>
    simp [issuing, stopped, armed, State.reset, Batch.atReset, Config.defaults, inLoop, symbolFits]
theorem witness_FaultedHaltsTheWorker :
    faulted.ls = .faulted ∧ ∃ t, step (issuing .host [0x00000008] faulted) = .next t := ⟨rfl, _, rfl⟩
theorem witness_ConfigurationWriters :
    ∃ t, step (issuing .host [0x00000005, 0x2EE0012C] State.reset) = .next t ∧ t.cfg ≠ State.reset.cfg :=
  ⟨_, rfl, by decide⟩
theorem witness_RelayKeepsTheBatch :
    (pending rep).rs.full = true ∧ ∃ t, step (issuing .worker [0x0000000A] (pending rep)) = .next t := ⟨rfl, _, rfl⟩
theorem witness_OneShotNeverOverwrites :
    Invariant (issuing .worker [0x0000000A] (pending rep)) ∧ (pending rep).params.oneShot = true ∧
    (pending rep).rs.full = true ∧ ∃ t, step (issuing .worker [0x0000000A] (pending rep)) = .next t :=
  ⟨witness_invariant_pending _, rfl, rfl, _, rfl⟩
theorem witness_ContextsAreIsolated :
    (∃ t, step (issuing .capture [0x00000009] armed) = .next t) ∧
    (∃ t, step (issuing .worker [0x0000000A] (pending rep)) = .next t) ∧
    (∃ t, step (issuing .host [0x00000008] armed) = .next t) ∧ ∃ t, step (issuing .sink [] armed) = .next t :=
  ⟨⟨_, rfl⟩, ⟨_, rfl⟩, ⟨_, rfl⟩, ⟨_, rfl⟩⟩
theorem witness_PortCallsPresentConfig :
    State.reset.ls = .unbuilt ∧ rearming.ls = .rearmPending ∧ faulted.ls = .faulted ∧ armed.h = true ∧
    (∃ t, exec .take (pending rep) = .next t) ∧
    ∃ t, step (issuing .worker [0x00000007] rearming) = .next t ∧ t.portLog = [.arm 0x2EE0012C .success] :=
  ⟨rfl, rfl, rfl, rfl, ⟨_, rfl⟩, _, rfl, by decide⟩

end Sys2Proof.Tests.Slice0
end

section
/-! The condition flags as propositions, and what an operation that is not enabled does (42_receive_loop.md R140). -/

namespace Sys2Proof.Machine

variable {s : State}

theorem takeEnabled_iff : takeEnabled s = true ↔ s.ls = .wait ∧ s.rs.full = true := by simp [takeEnabled]

theorem processEnabled_iff : processEnabled s = true ↔ s.ls = .haveBatch := by simp [processEnabled]

theorem armEnabled_iff : armEnabled s = true ↔ s.ls = .rearmPending := by simp [armEnabled]

theorem notifyEnabled_iff : notifyEnabled s = true ↔ s.cb = true ∧ s.pa = true := by simp [notifyEnabled]

theorem execProcess_waits (h : processEnabled s = false) : execProcess s = .next s := by simp [execProcess, h, waits]

theorem execArm_waits (f : Answer) (h : armEnabled s = false) : execArm f s = .next s := by simp [execArm, h, waits]

theorem execTake_waits (h : takeEnabled s = false) : execTake s = .next s := by simp [execTake, h, waits]

theorem execNotify_waits {b : List Symbol} (hfit : batchFits s.params.maxSymbols b.length = true)
    (h : notifyEnabled s = false) : execNotify b s = .next s := by
  rw [execNotify, withBatch_fits _ hfit]
  simp [h, waits]

/-- Settles O33: each of the four operations that can wait tests its flag, and the flag is the stated condition. -/
theorem notEnabledChangesNothing : Obligations.NotEnabledChangesNothing := by
  intro s
  refine ⟨fun h => ?take, fun h => ?process, fun h f => ?arm, fun h b hfit => ?notify⟩
  case take => exact execTake_waits (Bool.eq_false_iff.2 (mt takeEnabled_iff.1 h))
  case process => exact execProcess_waits (Bool.eq_false_iff.2 (mt processEnabled_iff.1 h))
  case arm => exact execArm_waits f (Bool.eq_false_iff.2 (mt armEnabled_iff.1 h))
  case notify => exact execNotify_waits hfit (Bool.eq_false_iff.2 (mt notifyEnabled_iff.1 h))

end Sys2Proof.Machine
end

section
/-! The schedule's accessors, and a step by what the next turn comes to (log 1). -/

namespace Sys2Proof.Machine

variable {s : State} {a : Agent} {ts : List Agent} {i : Instr} {rest : List Word}

/-! ### The words of each agent -/

@[simp] theorem withStream_turns (io : Schedule) (a : Agent) (ws : List Word) :
    (withStream io a ws).turns = io.turns := by cases a <;> rfl

@[simp] theorem streamOf_withStream_same (io : Schedule) (a : Agent) (ws : List Word) :
    streamOf (withStream io a ws) a = ws := by cases a <;> rfl

theorem streamOf_withStream_of_ne (io : Schedule) {a a' : Agent} (ws : List Word) (h : a' ≠ a) :
    streamOf (withStream io a ws) a' = streamOf io a' := by
  -- One agent twice contradicts h; for two agents the replaced field is not the one read.
  cases a <;> cases a' <;> trivial

@[simp] theorem streamOf_with_turns (io : Schedule) (ts : List Agent) (a : Agent) :
    streamOf { io with turns := ts } a = streamOf io a := by cases a <;> rfl

theorem passTurn_eq_of_turns (hts : s.io.turns = a :: ts) :
    passTurn s = { s with io := { s.io with turns := ts } } := by simp [passTurn, hts]

/-! ### The turn of an agent -/

theorem fetchFor_of_truncated (hd : decode s.params (streamOf s.io a) = .error .truncated) :
    fetchFor a s = .idle (passTurn s) := by simp [fetchFor, hd, refusalOf]

theorem fetchFor_of_not_enabled (hd : decode s.params (streamOf s.io a) = .ok (i, rest)) (ha : agentOf i = a)
    (he : enabled i s = false) : fetchFor a s = .idle (passTurn s) := by simp [fetchFor, hd, ha, he]

theorem fetchFor_of_enabled (hd : decode s.params (streamOf s.io a) = .ok (i, rest)) (ha : agentOf i = a)
    (he : enabled i s = true) : fetchFor a s = .run i (consume a rest s) := by simp [fetchFor, hd, ha, he]

/-! ### A step -/

theorem step_of_no_turn (hts : s.io.turns = []) : step s = .next s := by simp [step, fetch, hts]

theorem step_of_fetchFor_idle {s' : State} (hts : s.io.turns = a :: ts) (hf : fetchFor a s = .idle s') :
    step s = .next s' := by simp [step, fetch, hts, hf]

theorem step_of_fetchFor_run {s' : State} (hts : s.io.turns = a :: ts) (hf : fetchFor a s = .run i s') :
    step s = exec i s' := by simp [step, fetch, hts, hf]

/-- Settles O36: the operation runs in the state whose agent has issued exactly its words. -/
theorem stepRunsDecodedOperation : Obligations.StepRunsDecodedOperation := by
  intro s a ts i rest hts hd ha he
  refine ⟨consume a rest s, step_of_fetchFor_run hts (fetchFor_of_enabled hd ha he), ?turns, ?issued, ?others, rfl⟩
  case turns => simp [hts]
  case issued => simp
  case others =>
    intro a' hne
    simp [streamOf_withStream_of_ne _ _ hne]

/-- Settles O37: a turn with no whole operation and a turn whose operation waits both come to idle. -/
theorem waitingAgentKeepsItsOperation : Obligations.WaitingAgentKeepsItsOperation := by
  intro s
  refine ⟨step_of_no_turn, fun a ts hts hwait => ?_⟩
  have hidle : fetchFor a s = .idle (passTurn s) := by
    obtain hd | ⟨i, rest, hd, ha, he⟩ := hwait
    · exact fetchFor_of_truncated hd
    · exact fetchFor_of_not_enabled hd ha he
  rw [step_of_fetchFor_idle hts hidle, passTurn_eq_of_turns hts]

end Sys2Proof.Machine
end

section
/-! What the decoder answers is well-formed (30_encoding.md R73, R80, R84). -/

namespace Sys2Proof

variable {p : Config.Params} {op : Op} {w : Word} {xs ws rest : List Word} {i : Instr}

/-- A word list that decodes is a word that passes the checks of R84, its operand words, and what is left. -/
theorem decode_eq_ok (h : decode p ws = .ok (i, rest)) :
    ∃ w xs op, ws = w :: (xs ++ rest) ∧ checkHeader p.maxSymbols w = .ok op ∧ xs.length = operandWords p.durW op w ∧
      instrOf p.durW op w xs = some i := by
  cases ws with
  | nil => cases h
  | cons w ws =>
    simp only [decode] at h
    cases hop : checkHeader p.maxSymbols w with
    | error e => simp [hop] at h
    | ok op =>
      cases hr : readWords (operandWords p.durW op w) ws with
      | none => simp [hop, hr] at h
      | some r =>
        obtain ⟨hws, hlen⟩ := readWords_eq_some hr
        cases hi : instrOf p.durW op w r.1 with
        | none => simp [hop, hr, hi] at h
        | some i' =>
          simp only [hop, hr, hi] at h
          cases h
          exact ⟨w, r.1, op, by rw [hws], hop, hlen, hi⟩

theorem batchOk_of_symsOfWords {b : List Symbol} (hcount : (countField w).toNat ≤ p.maxSymbols)
    (hlen : xs.length = (countField w).toNat * wordsPerSym p.durW)
    (h : symsOfWords p.durW (countField w).toNat xs = some b) : batchOk p b = true := by
  obtain ⟨hb, hfit, -⟩ := symsOfWords_eq_some h hlen
  have := (countField w).isLt
  exact batchOk_iff.2 ⟨by omega, by omega, hfit⟩

/-- The operand words of a checked operation word carry operands that fit. -/
theorem wellFormed_of_instrOf (hop : checkHeader p.maxSymbols w = .ok op)
    (hlen : xs.length = operandWords p.durW op w) (h : instrOf p.durW op w xs = some i) : wellFormed p i = true := by
  obtain ⟨-, -, -, -, hcount⟩ := checkHeader_ok hop
  cases op with
  | matchEntry | classify =>
    obtain ⟨x, hx, rfl⟩ := Option.map_eq_some_iff.1 h
    exact (symOfWords_eq_some hx hlen).1
  | decodeFrame | decodeRepeat | notify =>
    obtain ⟨b, hb, rfl⟩ := Option.map_eq_some_iff.1 h
    exact batchOk_of_symsOfWords hcount hlen hb
  | construct =>
    obtain ⟨c, -, rfl⟩ := Option.map_eq_some_iff.1 h
    rfl
  | process | arm | destroy | take => cases h; rfl

theorem wellFormed_of_decode (h : decode p ws = .ok (i, rest)) : wellFormed p i = true := by
  obtain ⟨w, xs, op, -, hop, hlen, hi⟩ := decode_eq_ok h
  exact wellFormed_of_instrOf hop hlen hi

end Sys2Proof
end

section
/-! What every step does to FM, CFG and the parameters (10_state.md R25, R29, R35; 60_exceptions.md R204). -/

namespace Sys2Proof.Machine

variable {s t : State} {i : Instr}

/-- Routing a batch writes LF and the observation records, and nothing else. -/
theorem routeBatch_frame {b : Batch} (h : routeBatch b s = .ok t) :
    t = { s with lf := t.lf, eh := t.eh, tr := t.tr } := by
  obtain ⟨fr, -, -, rfl⟩ | ⟨-, -, -, rfl⟩ | ⟨d, -, -, rfl⟩ := routeBatch_cases h <;> rfl

/-- A step only advances the schedule, or runs a well-formed operation after that. -/
theorem step_next_exec (h : step s = .next t) :
    ∃ io, t = { s with io := io } ∨
      ∃ i, wellFormed s.params i = true ∧ exec i { s with io := io } = .next t := by
  obtain rfl | rfl | ⟨a, ts, i, rest, -, hd, -, -, he⟩ := step_next h
  · exact ⟨t.io, .inl rfl⟩
  · exact ⟨(passTurn s).io, .inl rfl⟩
  · exact ⟨(consume a rest s).io, .inr ⟨i, wellFormed_of_decode hd, he⟩⟩

/-! ### FM -/

/-- An operation leaves FM, or raises one fault, whose bit it adds. -/
theorem exec_fm (h : exec i s = .next t) :
    t.fm = s.fm ∨ ∃ k, t.fm = setFaultBit k s.fm ∧ t.ls = .faulted := by
  obtain rfl | ⟨q, rfl⟩ | ⟨f, c, -, rfl⟩ | ⟨-, s', hr, rfl⟩ | ⟨f, -, rfl⟩ | ⟨f, -, -, -, rfl⟩ | ⟨-, -, -, rfl⟩ |
    ⟨b, -, -, -, -, rfl⟩ | ⟨-, -, rfl⟩ := exec_next h
  · exact .inl rfl
  · exact .inl rfl
  · cases f with
    | success => exact .inl rfl
    | failure => exact .inr ⟨.startup, rfl, rfl⟩
  · rw [routeBatch_frame hr]
    exact .inl rfl
  · cases f with
    | success => exact .inl rfl
    | failure => exact .inr ⟨.rearm, rfl, rfl⟩
  · cases f with
    | success => exact .inl rfl
    | failure => exact .inr ⟨.teardown, rfl, rfl⟩
  · exact .inl rfl
  · rw [deliver_eq]
    exact .inl rfl
  · exact .inl rfl

theorem step_fm (h : step s = .next t) : t.fm = s.fm ∨ ∃ k, t.fm = setFaultBit k s.fm ∧ t.ls = .faulted := by
  obtain ⟨io, rfl | ⟨i, -, he⟩⟩ := step_next_exec h
  · exact .inl rfl
  · exact exec_fm (s := { s with io := io }) he

/-- Settles O46: FM stays, or gains the bit of the one fault that enters FAULTED. -/
theorem faultBitsAreSticky : Obligations.FaultBitsAreSticky := by
  intro s t h
  obtain hfm | ⟨k, hfm, hls⟩ := step_fm h
  · exact ⟨fun i hi => hfm ▸ hi, fun hne => absurd hfm hne⟩
  · refine ⟨fun i hi => ?_, fun _ => hls⟩
    rw [hfm, setFaultBit_getLsbD k s.fm i (BitVec.lt_of_getLsbD hi), hi, Bool.true_or]

/-! ### CFG and the parameters -/

/-- No operation writes the parameters or enters UNBUILT, and only one that leaves UNBUILT writes CFG. -/
theorem exec_configuration (h : exec i s = .next t) :
    t.params = s.params ∧ (t.cfg ≠ s.cfg → s.ls = .unbuilt ∧ t.ls ≠ .unbuilt) ∧ (t.ls = .unbuilt → s.ls = .unbuilt) := by
  obtain rfl | ⟨q, rfl⟩ | ⟨f, c, hls, rfl⟩ | ⟨-, s', hr, rfl⟩ | ⟨f, -, rfl⟩ | ⟨f, -, -, -, rfl⟩ | ⟨-, -, -, rfl⟩ |
    ⟨b, -, -, -, -, rfl⟩ | ⟨-, -, rfl⟩ := exec_next h
  · exact ⟨rfl, (absurd rfl ·), id⟩
  · exact ⟨rfl, (absurd rfl ·), id⟩
  · cases f <;> exact ⟨rfl, fun _ => ⟨hls, nofun⟩, nofun⟩
  · rw [routeBatch_frame hr]
    exact ⟨rfl, (absurd rfl ·), nofun⟩
  · cases f <;> exact ⟨rfl, (absurd rfl ·), nofun⟩
  · cases f <;> exact ⟨rfl, (absurd rfl ·), nofun⟩
  · exact ⟨rfl, (absurd rfl ·), nofun⟩
  · rw [deliver_eq]
    exact ⟨rfl, (absurd rfl ·), id⟩
  · exact ⟨rfl, (absurd rfl ·), nofun⟩

/-- Settles O50: a step writes CFG only by the operation it runs, a CONSTRUCT, which leaves UNBUILT. -/
theorem configurationWriters : Obligations.ConfigurationWriters := by
  intro s t h
  obtain ⟨io, rfl | ⟨i, -, he⟩⟩ := step_next_exec h
  · exact ⟨rfl, (absurd rfl ·), id⟩
  · exact exec_configuration (s := { s with io := io }) he

end Sys2Proof.Machine
end

section
/-! Every operation keeps the invariant of a run: one lemma per operation that changes a register the invariant reads,
each stating only the clauses the operation touches (10_state.md R22 to R28; 42_receive_loop.md; 43_symbol_relay.md). -/

namespace Sys2Proof.Machine

variable {s t : State} {i : Instr}

theorem inLoop_iff {l : LoopState} : inLoop l = true ↔ l = .wait ∨ l = .haveBatch ∨ l = .rearmPending := by
  simp [inLoop, or_assoc]

/-- The invariant does not read the schedule. -/
theorem Invariant.with_io (h : Invariant s) (io : Schedule) : Invariant { s with io := io } :=
  ⟨{ h.buffers with }, { h.lifecycle with }, { h.arming with }, { h.history with }⟩

theorem Invariant.trace_query (h : Invariant s) (q : QueryResult) : Invariant (trace (.query q) s) :=
  ⟨{ h.buffers with }, { h.lifecycle with }, { h.arming with }, { h.history with }⟩

/-! ### CONSTRUCT (R141) -/

theorem Invariant.construct_success (h : Invariant s) (hls : s.ls = .unbuilt) (c : Word) :
    Invariant (construct .success c s) where
  buffers := { h.buffers with relayCount := nofun, workCount := nofun }
  lifecycle :=
    { handleCallback := rfl
      armedCallback := fun _ => rfl
      loopBuilt := fun _ => rfl
      closed := nofun
      faultRecorded := nofun }
  arming :=
    { notStarved := fun _ => .inl rfl
      windowEnded := nofun
      ownedAlone := nofun }
  history :=
    { freshInvalid := nofun
      noFrameNoEvent := fun _ => h.history.noFrameNoEvent (h.history.freshInvalid hls)
      lastEvent := nofun }

theorem Invariant.construct_failure (h : Invariant s) (hls : s.ls = .unbuilt) (c : Word) :
    Invariant (construct .failure c s) where
  buffers := { h.buffers with relayCount := nofun, workCount := nofun }
  lifecycle :=
    { handleCallback := rfl
      armedCallback := nofun
      loopBuilt := nofun
      closed := fun _ => ⟨rfl, rfl⟩
      faultRecorded := fun _ => setFaultBit_ne_zero _ _ }
  arming :=
    { notStarved := nofun
      windowEnded := nofun
      ownedAlone := nofun }
  history :=
    { freshInvalid := nofun
      noFrameNoEvent := fun _ => h.history.noFrameNoEvent (h.history.freshInvalid hls)
      lastEvent := nofun }

/-! ### PROCESS (R143) -/

/-- What is published is what LF holds: the frame just remembered, or the prior frame as a repeat (R144, R145). -/
theorem HistoryOk.routeBatch {b : Batch} (h : HistoryOk s) (hls : s.ls = .haveBatch) (hr : routeBatch b s = .ok t) :
    HistoryOk t := by
  obtain ⟨fr, -, -, rfl⟩ | ⟨-, -, hv, rfl⟩ | ⟨d, -, -, rfl⟩ := routeBatch_cases hr
  · exact
      { freshInvalid := fun hu => absurd (hls.symm.trans hu) nofun
        noFrameNoEvent := nofun
        lastEvent := fun _ => ⟨_, List.getLast?_concat, rfl, rfl⟩ }
  · exact
      { freshInvalid := h.freshInvalid
        noFrameNoEvent := fun hn => absurd (hv.symm.trans hn) nofun
        lastEvent := fun _ => ⟨_, List.getLast?_concat, rfl, rfl⟩ }
  · exact { h with }

theorem Invariant.routeBatch {b : Batch} (h : Invariant s) (hls : s.ls = .haveBatch) (hr : routeBatch b s = .ok t) :
    Invariant t := by
  have hhist := h.history.routeBatch hls hr
  rw [routeBatch_frame hr] at hhist ⊢
  exact ⟨{ h.buffers with }, { h.lifecycle with }, { h.arming with }, hhist⟩

theorem Invariant.finishProcess (h : Invariant s) (hls : s.ls = .haveBatch) : Invariant (finishProcess s) where
  buffers :=
    { h.buffers with
      workSlots := freeSymbols_length _ _ _ _
      workDurations := fun _ => freeSymbols_fit
      workCount := nofun }
  lifecycle :=
    { h.lifecycle with
      loopBuilt := fun _ => h.lifecycle.loopBuilt (inLoop_iff.2 (.inr (.inl hls)))
      closed := nofun
      faultRecorded := nofun }
  arming :=
    { h.arming with
      notStarved := nofun
      ownedAlone := fun hone _ => h.arming.ownedAlone hone (.inl hls) }
  history := { h.history with freshInvalid := nofun }

/-! ### ARM (R147) -/

theorem Invariant.rearm_success (h : Invariant s) (hls : s.ls = .rearmPending) (c : Word) :
    Invariant (rearm .success c s) where
  buffers := { h.buffers with workCount := nofun }
  lifecycle :=
    { handleCallback := h.lifecycle.handleCallback
      armedCallback := fun _ => h.lifecycle.loopBuilt (inLoop_iff.2 (.inr (.inr hls)))
      loopBuilt := fun _ => h.lifecycle.loopBuilt (inLoop_iff.2 (.inr (.inr hls)))
      closed := nofun
      faultRecorded := nofun }
  arming :=
    { notStarved := fun _ => .inl rfl
      windowEnded := fun hone hfull => absurd ((h.arming.ownedAlone hone (.inr hls)).2.symm.trans hfull) nofun
      ownedAlone := nofun }
  history := { h.history with freshInvalid := nofun }

theorem Invariant.rearm_failure (h : Invariant s) (c : Word) : Invariant (rearm .failure c s) where
  buffers := { h.buffers with workCount := nofun }
  lifecycle :=
    { handleCallback := h.lifecycle.handleCallback
      armedCallback := nofun
      loopBuilt := nofun
      closed := nofun
      faultRecorded := fun _ => setFaultBit_ne_zero _ _ }
  arming :=
    { notStarved := nofun
      windowEnded := fun _ _ => rfl
      ownedAlone := nofun }
  history := { h.history with freshInvalid := nofun }

/-! ### DESTROY (R150) -/

theorem Invariant.teardown_success (h : Invariant s) : Invariant (teardown .success s) where
  buffers :=
    { h.buffers with
      relayCount := nofun
      workSlots := freeSymbols_length _ _ _ _
      workDurations := fun _ => freeSymbols_fit
      workCount := nofun }
  lifecycle :=
    { handleCallback := rfl
      armedCallback := nofun
      loopBuilt := nofun
      closed := fun _ => ⟨rfl, rfl⟩
      faultRecorded := nofun }
  arming :=
    { notStarved := nofun
      windowEnded := nofun
      ownedAlone := nofun }
  history := { h.history with freshInvalid := nofun }

theorem Invariant.teardown_failure (h : Invariant s) : Invariant (teardown .failure s) where
  buffers := { h.buffers with workCount := nofun }
  lifecycle :=
    { h.lifecycle with
      loopBuilt := nofun
      closed := nofun
      faultRecorded := fun _ => setFaultBit_ne_zero _ _ }
  arming := { h.arming with notStarved := nofun, ownedAlone := nofun }
  history := { h.history with freshInvalid := nofun }

theorem Invariant.abandon (h : Invariant s) (hh : s.h = false) : Invariant (abandon s) where
  buffers := { h.buffers with relayCount := nofun, workCount := nofun }
  lifecycle :=
    { handleCallback := hh
      armedCallback := nofun
      loopBuilt := nofun
      closed := fun _ => ⟨rfl, rfl⟩
      faultRecorded := nofun }
  arming :=
    { notStarved := nofun
      windowEnded := nofun
      ownedAlone := nofun }
  history := { h.history with freshInvalid := nofun }

/-! ### NOTIFY and TAKE (R171, R173) -/

/-- A delivery needs CB, so the loop is built, and PA, so with ONE_SHOT the worker holds no batch (R176, R58). -/
theorem Invariant.deliver (h : Invariant s) {b : List Symbol} (hb : batchOk s.params b = true) (hcb : s.cb = true)
    (hpa : s.pa = true) : Invariant (deliver (operandBatch b) s) := by
  obtain ⟨hmax, hlen, hfit⟩ := batchOk_iff.1 hb
  have hcount : (operandBatch b).count.toNat = b.length := countOf_toNat hlen
  have hwindow : s.params.oneShot = true → (s.pa && !s.params.oneShot) = false := fun hone => by simp [hone]
  rw [deliver_eq]
  exact
    { buffers :=
        { h.buffers with
          relaySlots := by simp [hmax]
          relayCount := fun _ => hcount.trans_le hmax
          relayDurations := fun x hx =>
            (List.mem_append.1 hx).elim (List.all_eq_true.1 hfit x) freeSymbols_fit }
      lifecycle :=
        { h.lifecycle with
          armedCallback := fun _ => hcb
          closed := fun hls => absurd ((h.lifecycle.closed hls).1.symm.trans hcb) nofun }
      arming :=
        { notStarved := fun _ => .inr rfl
          windowEnded := fun hone _ => hwindow hone
          ownedAlone := fun hone hls => absurd ((h.arming.ownedAlone hone hls).1.symm.trans hpa) nofun }
      history := { h.history with } }

theorem Invariant.takeBatch (h : Invariant s) (hls : s.ls = .wait) (hfull : s.rs.full = true) :
    Invariant (takeBatch s.rs.batch s) where
  buffers :=
    { h.buffers with
      relayCount := nofun
      workSlots := by
        have := h.buffers.relayCount hfull
        simp [takeBatch_eq, h.buffers.relaySlots, h.buffers.workSlots]
        omega
      workDurations := fun x hx =>
        (List.mem_append.1 hx).elim (fun hx => h.buffers.relayDurations x (List.mem_of_mem_take hx))
          (fun hx => h.buffers.workDurations x (List.mem_of_mem_drop hx))
      workCount := fun _ => h.buffers.relayCount hfull }
  lifecycle :=
    { h.lifecycle with
      loopBuilt := fun _ => h.lifecycle.loopBuilt (inLoop_iff.2 (.inl hls))
      closed := nofun
      faultRecorded := nofun }
  arming :=
    { notStarved := nofun
      windowEnded := nofun
      ownedAlone := fun hone _ => ⟨h.arming.windowEnded hone hfull, rfl⟩ }
  history := { h.history with freshInvalid := nofun }

/-! ### Every operation, every step -/

theorem Invariant.of_exec (h : Invariant s) (hwf : wellFormed s.params i = true) (he : exec i s = .next t) :
    Invariant t := by
  obtain rfl | ⟨q, rfl⟩ | ⟨f, c, hls, rfl⟩ | ⟨hls, s', hr, rfl⟩ | ⟨f, hls, rfl⟩ | ⟨f, -, -, -, rfl⟩ | ⟨-, -, hh, rfl⟩ |
    ⟨b, rfl, -, hcb, hpa, rfl⟩ | ⟨hls, hfull, rfl⟩ := exec_next he
  · exact h
  · exact h.trace_query q
  · cases f with
    | success => exact h.construct_success hls c
    | failure => exact h.construct_failure hls c
  · have hls' : s'.ls = .haveBatch := by rw [routeBatch_frame hr]; exact hls
    exact (h.routeBatch hls hr).finishProcess hls'
  · cases f with
    | success => exact h.rearm_success hls s.cfg
    | failure => exact h.rearm_failure s.cfg
  · cases f with
    | success => exact h.teardown_success
    | failure => exact h.teardown_failure
  · exact h.abandon hh
  · exact h.deliver hwf hcb hpa
  · exact h.takeBatch hls hfull

/-- Settles O42: a step advances the schedule, which the invariant does not read, and runs at most one operation, whose
operands fit. -/
theorem stepKeepsInvariant : Obligations.StepKeepsInvariant := by
  intro s t h hstep
  obtain ⟨io, rfl | ⟨i, hwf, he⟩⟩ := step_next_exec hstep
  · exact h.with_io io
  · exact (h.with_io io).of_exec hwf he

end Sys2Proof.Machine
end

section
/-! No guarded read of an operation meets an unspecified field or an index past a batch (10_state.md R39; 20_memory.md
R51). -/

namespace Sys2Proof.Machine

variable {s : State} {f : Fault}

theorem withBatch_not_fault {b : List Symbol} {k : Batch → Result}
    (h : batchFits s.params.maxSymbols b.length = true → k (operandBatch b) ≠ .fault f) :
    withBatch b s k ≠ .fault f := by
  unfold withBatch
  split
  · exact h ‹_›
  · nofun

/-- A batch operand has a slot for every index below its count. -/
theorem operandBatch_slots {b : List Symbol} (h : batchFits s.params.maxSymbols b.length = true) :
    (operandBatch b).count.toNat ≤ (operandBatch b).sym.length := (operandBatch_count h).1.le

theorem execDecodeFrame_not_fault (b : List Symbol) (s : State) : execDecodeFrame b s ≠ .fault f :=
  withBatch_not_fault fun hfit => by
    obtain ⟨o, ho⟩ := decodeFrame_ok s.params (operandBatch_slots hfit)
    simp [ho]

theorem execDecodeRepeat_not_fault (b : List Symbol) (s : State) : execDecodeRepeat b s ≠ .fault f :=
  withBatch_not_fault fun hfit => by
    obtain ⟨o, ho⟩ := decodeRepeat_ok s.params (operandBatch_slots hfit)
    simp [ho]

theorem execNotify_not_fault (b : List Symbol) (s : State) : execNotify b s ≠ .fault f :=
  withBatch_not_fault fun _ => by split <;> nofun

theorem execConstruct_not_fault (a : Answer) (c : Word) (s : State) : execConstruct a c s ≠ .fault f := by
  unfold execConstruct
  split <;> nofun

theorem execDestroy_not_fault (a : Answer) (s : State) : execDestroy a s ≠ .fault f := by
  unfold execDestroy
  split <;> nofun

theorem execTake_not_fault (s : State) : execTake s ≠ .fault f := by
  unfold execTake
  split
  · rename_i he
    rw [readRelay_ok (takeEnabled_iff.1 he).2]
    nofun
  · nofun

theorem execArm_not_fault (a : Answer) (s : State) : execArm a s ≠ .fault f := by
  unfold execArm
  split
  · rename_i he
    rw [readCfg_ok (by simp [armEnabled_iff.1 he])]
    nofun
  · nofun

/-- A batch whose count is within its slots is routed without a fault: LF is read only after LF.valid is tested. -/
theorem routeBatch_ok {b : Batch} (s : State) (h : b.count.toNat ≤ b.sym.length) : ∃ t, routeBatch b s = .ok t := by
  unfold routeBatch
  split
  · obtain ⟨o, ho⟩ := decodeFrame_ok s.params h
    cases o <;> simp [processFrame, ho]
  · split
    · obtain ⟨o, ho⟩ := decodeRepeat_ok s.params h
      cases o with
      | isRepeat =>
        cases hv : s.lf.valid with
        | false => simp [processRepeat, ho, hv]
        | true => simp [processRepeat, ho, hv, publishRepeat, readLast_ok hv]
      | invalid r => simp [processRepeat, ho]
    · exact ⟨_, rfl⟩

theorem execProcess_not_fault (h : BuffersOk s) : execProcess s ≠ .fault f := by
  unfold execProcess
  split
  · rename_i he
    have hls := processEnabled_iff.1 he
    have hslots : s.wb.count.toNat ≤ s.wb.sym.length := h.workSlots ▸ h.workCount hls
    obtain ⟨t, ht⟩ := routeBatch_ok s hslots
    simp [process, readWork_ok hls, ht, ofRead]
  · nofun

/-- Only PROCESS needs the invariant, for its batch: what any other operation reads, its own check guards. -/
theorem exec_not_fault (i : Instr) (h : BuffersOk s) : exec i s ≠ .fault f := by
  cases i with
  | matchEntry e x => nofun
  | classify x => nofun
  | decodeFrame b => exact execDecodeFrame_not_fault b s
  | decodeRepeat b => exact execDecodeRepeat_not_fault b s
  | construct a c => exact execConstruct_not_fault a c s
  | process => exact execProcess_not_fault h
  | arm a => exact execArm_not_fault a s
  | destroy a => exact execDestroy_not_fault a s
  | notify b => exact execNotify_not_fault b s
  | take => exact execTake_not_fault s

/-- A step that faults runs an operation that faults. -/
theorem step_fault (h : step s = .fault f) : ∃ i io, exec i { s with io := io } = .fault f := by
  unfold step fetch at h
  cases hts : s.io.turns with
  | nil => rw [hts] at h; cases h
  | cons a ts =>
    rw [hts] at h
    obtain hf | ⟨r, hf⟩ | ⟨i, rest, -, -, -, hf⟩ := fetchFor_cases a s
    · simp [hf] at h
    · simp [hf] at h
    · simp only [hf] at h
      exact ⟨i, (consume a rest s).io, h⟩

/-- Settles O43: the batch PROCESS reads has a slot for every index below its count, by the invariant. -/
theorem noStepReadsUnspecified : Obligations.NoStepReadsUnspecified := by
  intro s f h hstep
  obtain ⟨i, io, he⟩ := step_fault hstep
  exact exec_not_fault i (h.with_io io).buffers he

end Sys2Proof.Machine
end

section
/-! A batch through the relay: what each operation does to RS and to the Overwrite records (20_memory.md R54, R57, R58;
43_symbol_relay.md). -/

namespace Sys2Proof.Machine

variable {s t : State} {i : Instr} {b : List Symbol}

theorem symRead_of_count_le {b : Batch} {k : Nat} (h : b.count.toNat ≤ k) : symRead b k = .error .outOfBatchRead :=
  if_neg (Nat.not_lt.2 h)

/-! ### From NOTIFY to TAKE -/

theorem execNotify_enabled_next (hcb : s.cb = true) (hpa : s.pa = true) (h : execNotify b s = .next t) :
    batchFits s.params.maxSymbols b.length = true ∧ t = deliver (operandBatch b) s := by
  obtain ⟨hfit, ⟨-, -, ht⟩ | ⟨hne, -⟩⟩ := execNotify_next h
  · exact ⟨hfit, ht⟩
  · exact absurd ((notifyEnabled_iff.2 ⟨hcb, hpa⟩).symm.trans hne) nofun

theorem execTake_enabled_next (hls : s.ls = .wait) (hfull : s.rs.full = true) (h : execTake s = .next t) :
    t = takeBatch s.rs.batch s := by
  obtain ⟨-, -, ht⟩ | ⟨hne, -⟩ := execTake_next h
  · exact ht
  · exact absurd ((takeEnabled_iff.2 ⟨hls, hfull⟩).symm.trans hne) nofun

theorem deliver_full (b : Batch) (s : State) : (deliver b s).rs.full = true := by rw [deliver_eq]

theorem deliver_count (b : Batch) (s : State) : (deliver b s).rs.batch.count = b.count := by rw [deliver_eq]

theorem deliver_slot (b : Batch) (s : State) {k : Nat} (hk : k < b.sym.length) :
    (deliver b s).rs.batch.sym[k]? = b.sym[k]? := by
  rw [deliver_eq]
  exact List.getElem?_append_left hk

theorem deliver_tr_of_full (b : Batch) (hfull : s.rs.full = true) : (deliver b s).tr = s.tr ++ [.overwrite] := by
  rw [deliver_eq]
  exact if_pos hfull

theorem deliver_tr_of_not_full (b : Batch) (hfull : s.rs.full = false) : (deliver b s).tr = s.tr := by
  rw [deliver_eq]
  exact if_neg (by simp [hfull])

theorem takeBatch_slot {b : Batch} {k : Nat} {x : Symbol} (s : State) (hk : k < b.count.toNat)
    (hx : b.sym[k]? = some x) : (takeBatch b s).wb.sym[k]? = some x := by
  obtain ⟨hlen, -⟩ := List.getElem?_eq_some_iff.1 hx
  have hpre : k < (b.sym.take b.count.toNat).length := by simp [hk, hlen]
  calc (takeBatch b s).wb.sym[k]?
    _ = (b.sym.take b.count.toNat)[k]? := List.getElem?_append_left hpre
    _ = some x := by rw [List.getElem?_take_of_lt hk, hx]

/-- Settles O34: NOTIFY puts the batch into the slots of RS below its count, and TAKE copies those. -/
theorem takeReturnsWhatNotifyPut : Obligations.TakeReturnsWhatNotifyPut := by
  intro b s s1 s2 t hcb hpa hput hrs hls htake
  obtain ⟨hfit, rfl⟩ := execNotify_enabled_next hcb hpa hput
  obtain rfl := execTake_enabled_next hls (by rw [hrs, deliver_full]) htake
  have hput_count : s2.rs.batch.count.toNat = b.length := by rw [hrs, deliver_count, (operandBatch_count hfit).1]
  have hcount : (takeBatch s2.rs.batch s2).wb.count.toNat = b.length := hput_count
  refine ⟨rfl, hcount, fun k hk => ?below, fun k hk => ?beyond⟩
  case below =>
    have hslot : s2.rs.batch.sym[k]? = some (b.getD k ⟨0, 0⟩) := by
      rw [hrs, deliver_slot _ _ hk, operandBatch_sym, List.getD_eq_getElem?_getD, List.getElem?_eq_getElem hk,
        Option.getD_some]
    exact symRead_ok (hk.trans_eq hcount.symm) (takeBatch_slot s2 (hk.trans_eq hput_count.symm) hslot)
  case beyond => exact symRead_of_count_le (hcount.trans_le hk)

/-! ### Every operation, every step -/

/-- Who empties RS: TAKE, DESTROY and CONSTRUCT (R173, R150, R141). -/
def EmptiesRelay (s t : State) : Prop :=
  t.rs = { s.rs with full := false } ∧
    ((s.ls = .wait ∧ t.ls = .haveBatch ∧ t.wb.count = s.rs.batch.count) ∨ t.ls = .stopped ∨ s.ls = .unbuilt)

theorem routeBatch_tr {b : Batch} (h : routeBatch b s = .ok t) : ∃ d, t.tr = s.tr ++ [.disp d] := by
  obtain ⟨fr, -, -, rfl⟩ | ⟨-, -, -, rfl⟩ | ⟨d, -, -, rfl⟩ := routeBatch_cases h <;> exact ⟨_, rfl⟩

/-- An operation leaves RS, delivers into it on an armed source, or empties it; none but a delivery leaves an Overwrite
record. -/
theorem exec_relay (h : exec i s = .next t) :
    (t.rs = s.rs ∧ t.tr ≠ s.tr ++ [.overwrite]) ∨ (∃ b, s.pa = true ∧ t = deliver b s) ∨
    (EmptiesRelay s t ∧ t.tr = s.tr) := by
  obtain rfl | ⟨q, rfl⟩ | ⟨f, c, hls, rfl⟩ | ⟨-, s', hr, rfl⟩ | ⟨f, -, rfl⟩ | ⟨f, -, -, -, rfl⟩ | ⟨-, -, -, rfl⟩ |
    ⟨b, -, -, -, hpa, rfl⟩ | ⟨hls, -, rfl⟩ := exec_next h
  · exact .inl ⟨rfl, by simp⟩
  · exact .inl ⟨rfl, by simp⟩
  · cases f <;> exact .inr (.inr ⟨⟨rfl, .inr (.inr hls)⟩, rfl⟩)
  · obtain ⟨d, hd⟩ := routeBatch_tr hr
    have hrs : s'.rs = s.rs := by rw [routeBatch_frame hr]
    exact .inl ⟨hrs, by simp [finishProcess_eq, hd]⟩
  · cases f <;> exact .inl ⟨rfl, by simp [rearm_success, rearm_failure]⟩
  · cases f with
    | success => exact .inr (.inr ⟨⟨rfl, .inr (.inl rfl)⟩, rfl⟩)
    | failure => exact .inl ⟨rfl, by simp [teardown_failure]⟩
  · exact .inr (.inr ⟨⟨rfl, .inr (.inl rfl)⟩, rfl⟩)
  · exact .inr (.inl ⟨_, hpa, rfl⟩)
  · exact .inr (.inr ⟨⟨rfl, .inl ⟨hls, rfl, rfl⟩⟩, rfl⟩)

theorem step_relay (h : step s = .next t) :
    (t.rs = s.rs ∧ t.tr ≠ s.tr ++ [.overwrite]) ∨ (∃ b io, s.pa = true ∧ t = deliver b { s with io := io }) ∨
    (EmptiesRelay s t ∧ t.tr = s.tr) := by
  obtain ⟨io, rfl | ⟨i, -, he⟩⟩ := step_next_exec h
  · exact .inl ⟨rfl, by simp⟩
  · obtain hkeep | ⟨b, hpa, ht⟩ | hempty := exec_relay he
    · exact .inl hkeep
    · exact .inr (.inl ⟨b, io, hpa, ht⟩)
    · exact .inr (.inr hempty)

/-- Settles O51: from a full relay a delivery leaves the Overwrite record, and whatever empties RS is named. -/
theorem relayKeepsTheBatch : Obligations.RelayKeepsTheBatch := by
  intro s t hfull h
  obtain ⟨hrs, -⟩ | ⟨b, io, -, rfl⟩ | ⟨⟨hrs, ⟨hls, hls', hcount⟩ | hend⟩, -⟩ := step_relay h
  · exact .inl hrs
  · exact .inr (.inr (.inl ⟨deliver_full _ _, deliver_tr_of_full (s := { s with io := io }) b hfull⟩))
  · exact .inr (.inl ⟨hls, hls', hrs, hcount⟩)
  · exact .inr (.inr (.inr ⟨by rw [hrs], hend⟩))

/-- Settles O52: with ONE_SHOT a full relay means that the window has ended (R176), so a delivery finds RS empty. -/
theorem oneShotNeverOverwrites : Obligations.OneShotNeverOverwrites := by
  intro s t hinv hone h
  obtain ⟨hrs, htr⟩ | ⟨b, io, hpa, rfl⟩ | ⟨⟨hrs, -⟩, htr⟩ := step_relay h
  · exact ⟨htr, fun _ => .inl hrs⟩
  · have hempty : s.rs.full = false :=
      Bool.eq_false_iff.2 fun hfull => absurd ((hinv.arming.windowEnded hone hfull).symm.trans hpa) nofun
    have htr := deliver_tr_of_not_full (s := { s with io := io }) b hempty
    exact ⟨by simp [htr], fun hfull => absurd (hempty.symm.trans hfull) nofun⟩
  · exact ⟨by simp [htr], fun _ => .inr hrs⟩

end Sys2Proof.Machine
end

section
/-! The byte order of a serialised word (20_memory.md R52). -/

namespace Sys2Proof

@[simp] theorem bytesOfNat_zero (v : Nat) : bytesOfNat 0 v = [] := rfl

theorem bytesOfNat_succ (k v : Nat) : bytesOfNat (k + 1) v = BitVec.ofNat 8 v :: bytesOfNat k (v / 2 ^ 8) := by
  simp [bytesOfNat, List.range_succ_eq_map, Nat.div_div_eq_div_mul, Nat.mul_succ, Nat.add_comm, Nat.pow_add]

theorem natOfBytes_cons (b : Byte) (bs : List Byte) : natOfBytes (b :: bs) = b.toNat + 256 * natOfBytes bs := rfl

/-- A number of k bytes is read back from them. -/
theorem natOfBytes_bytesOfNat {k v : Nat} (h : v < 2 ^ (8 * k)) : natOfBytes (bytesOfNat k v) = v := by
  induction k generalizing v with
  | zero =>
    have : v = 0 := by simpa using h
    rw [this]
    rfl
  | succ k ih =>
    have hrest : v / 2 ^ 8 < 2 ^ (8 * k) := by
      rw [Nat.div_lt_iff_lt_mul (by norm_num), ← Nat.pow_add]
      exact h
    rw [bytesOfNat_succ, natOfBytes_cons, ih hrest, BitVec.toNat_ofNat]
    omega

/-- Byte j of a bit vector is its bits [8 j + 7 : 8 j]. -/
theorem ofNat_toNat_div_eq_extractLsb' {n : Nat} (v : BitVec n) (j : Nat) :
    BitVec.ofNat 8 (v.toNat / 2 ^ (8 * j)) = v.extractLsb' (8 * j) 8 := by
  rw [BitVec.extractLsb', Nat.shiftRight_eq_div_pow]

theorem bytesOfNat_toNat {n : Nat} (v : BitVec n) (k : Nat) :
    bytesOfNat k v.toNat = (List.range k).map fun j => v.extractLsb' (8 * j) 8 :=
  List.map_congr_left fun j _ => ofNat_toNat_div_eq_extractLsb' v j

theorem wordOfBytes_bytesOfWord (w : Word) : wordOfBytes (bytesOfWord w) = w := by
  rw [wordOfBytes, bytesOfWord, natOfBytes_bytesOfNat w.isLt, BitVec.ofNat_toNat, BitVec.setWidth_eq]

namespace Machine

theorem evtOfBytes_bytesOfEvt (v : BitVec 33) : evtOfBytes (bytesOfEvt v) = v := by
  have hv : v.toNat < 2 ^ (8 * 5) := v.isLt.trans (by norm_num)
  rw [evtOfBytes, bytesOfEvt, natOfBytes_bytesOfNat hv, BitVec.ofNat_toNat, BitVec.setWidth_eq]

/-- The fifth byte of an EVT record holds bit 32 alone (log 20). -/
theorem extractLsb'_thirtyTwo_evt (v : BitVec 33) : v.extractLsb' 32 8 = (v.extractLsb' 32 1).setWidth 8 := by
  have := v.isLt
  apply BitVec.eq_of_toNat_eq
  simp only [BitVec.extractLsb'_toNat, BitVec.toNat_setWidth, Nat.shiftRight_eq_div_pow]
  omega

/-- Settles O6: byte j is bits [8 j + 7 : 8 j], and bytes are digits base 256. -/
theorem serialisedWordIsLittleEndian : Obligations.SerialisedWordIsLittleEndian := by
  refine ⟨fun w => ⟨bytesOfNat_toNat w 4, wordOfBytes_bytesOfWord w⟩, fun v => ⟨?evtBytes, evtOfBytes_bytesOfEvt v⟩⟩
  case evtBytes =>
    rw [← extractLsb'_thirtyTwo_evt]
    exact bytesOfNat_toNat v 5

end Machine
end Sys2Proof
end

section
/-! The queries read their operands and the parameters only (20_memory.md R55; 41_frame_codec.md R120). -/

namespace Sys2Proof.Machine

variable {s : State} {b : List Symbol}

theorem execDecodeFrame_of_decode {o : DecodeOutcome} (hfit : batchFits s.params.maxSymbols b.length = true)
    (ho : decodeFrame s.params (operandBatch b) = .ok o) :
    execDecodeFrame b s = .next (trace (.query (.frameOutcome o)) s) := by
  rw [execDecodeFrame, withBatch_fits _ hfit, ho]

theorem execDecodeRepeat_of_decode {o : RepeatOutcome} (hfit : batchFits s.params.maxSymbols b.length = true)
    (ho : decodeRepeat s.params (operandBatch b) = .ok o) :
    execDecodeRepeat b s = .next (trace (.query (.repeatOutcome o)) s) := by
  rw [execDecodeRepeat, withBatch_fits _ hfit, ho]

/-- Settles O20: the answer depends on the parameters alone, and a Query record does not change them. -/
theorem queriesAreIdempotent : Obligations.QueriesAreIdempotent := by
  rintro i s t (⟨e, x, rfl⟩ | ⟨x, rfl⟩ | ⟨b, rfl⟩ | ⟨b, rfl⟩) h
  · cases h
    exact ⟨.matched (symMatches s.params x e), rfl, rfl⟩
  · cases h
    exact ⟨.bitClass (classifyBit s.params x), rfl, rfl⟩
  · obtain ⟨hfit, o, ho, rfl⟩ := execDecodeFrame_next h
    exact ⟨.frameOutcome o, rfl, execDecodeFrame_of_decode hfit ho⟩
  · obtain ⟨hfit, o, ho, rfl⟩ := execDecodeRepeat_next h
    exact ⟨.repeatOutcome o, rfl, execDecodeRepeat_of_decode hfit ho⟩

end Sys2Proof.Machine
end

section
/-! The two round trips of the binary form (30_encoding.md R70, R80, R84): what decodes, and that a decoded instruction
has the words it was decoded from. -/

namespace Sys2Proof

variable {p : Config.Params} {op : Op} {w : Word} {xs ws rest : List Word} {i : Instr}

/-- A checked operation word with its operand words decodes, whatever follows them; with `decode_eq_ok`, exactly these
word lists do. -/
theorem decode_of_instrOf (hop : checkHeader p.maxSymbols w = .ok op) (hlen : xs.length = operandWords p.durW op w)
    (hi : instrOf p.durW op w xs = some i) (rest : List Word) : decode p (w :: (xs ++ rest)) = .ok (i, rest) := by
  simp [decode, hop, ← hlen, readWords_append, hi]

/-- Settles O1: the operation word passes the checks of R84, and it and the operand words are read back. -/
theorem decodeOfEncode : Obligations.DecodeOfEncode := by
  intro p i rest hwf
  exact decode_of_instrOf (checkHeader_headerWord hwf) (operandWords_headerWord hwf).symm (instrOf_headerWord hwf) rest

/-- COUNT is given back by a list of COUNT symbols. -/
theorem countOf_eq_countField {b : List Symbol} (h : b.length = (countField w).toNat) : countOf b = countField w := by
  rw [countOf, h, BitVec.ofNat_toNat, BitVec.setWidth_eq]

/-- The instruction read from a checked operation word has that operation word: a field the row does not use is zero
(R75), and every other field is an operand. -/
theorem headerWord_of_instrOf (hop : checkHeader p.maxSymbols w = .ok op)
    (hlen : xs.length = operandWords p.durW op w) (h : instrOf p.durW op w xs = some i) : headerWord i = w := by
  obtain ⟨hw, hsel, hcount, hanswer, -⟩ := checkHeader_ok hop
  rw [hw]
  cases op with
  | matchEntry =>
    obtain ⟨x, -, rfl⟩ := Option.map_eq_some_iff.1 h
    simp [headerWord, hcount rfl, hanswer rfl]
  | classify =>
    obtain ⟨x, -, rfl⟩ := Option.map_eq_some_iff.1 h
    rw [headerWord, hsel rfl, hcount rfl, hanswer rfl]
  | decodeFrame | decodeRepeat | notify =>
    obtain ⟨b, hb, rfl⟩ := Option.map_eq_some_iff.1 h
    obtain ⟨hn, -, -⟩ := symsOfWords_eq_some hb hlen
    rw [headerWord, countOf_eq_countField hn, hsel rfl, hanswer rfl]
  | construct =>
    obtain ⟨c, -, rfl⟩ := Option.map_eq_some_iff.1 h
    simp [headerWord, hsel rfl, hcount rfl]
  | arm | destroy =>
    cases h
    simp [headerWord, hsel rfl, hcount rfl]
  | process | take =>
    cases h
    rw [headerWord, hsel rfl, hcount rfl, hanswer rfl]

/-- The instruction read from an operation word and its operand words has those operand words. -/
theorem operandsOf_of_instrOf (hlen : xs.length = operandWords p.durW op w)
    (h : instrOf p.durW op w xs = some i) : operandsOf p.durW i = xs := by
  cases op with
  | matchEntry | classify =>
    obtain ⟨x, hx, rfl⟩ := Option.map_eq_some_iff.1 h
    exact (symOfWords_eq_some hx hlen).2.symm
  | decodeFrame | decodeRepeat | notify =>
    obtain ⟨b, hb, rfl⟩ := Option.map_eq_some_iff.1 h
    obtain ⟨-, -, hxs⟩ := symsOfWords_eq_some hb hlen
    exact hxs.symm
  | construct =>
    obtain ⟨y, rfl⟩ := List.length_eq_one_iff.1 hlen
    cases h
    rfl
  | process | arm | destroy | take =>
    cases h
    exact (List.length_eq_zero_iff.1 hlen).symm

/-- Settles O2: the words decoded are a checked operation word, its operand words and what is left, and the instruction
gives the first two back. -/
theorem encodeOfDecode : Obligations.EncodeOfDecode := by
  intro p ws rest i h
  refine ⟨wellFormed_of_decode h, ?words⟩
  case words =>
    obtain ⟨w, xs, op, rfl, hop, hlen, hi⟩ := decode_eq_ok h
    rw [encode, headerWord_of_instrOf hop hlen hi, operandsOf_of_instrOf hlen hi, List.cons_append]

theorem decode_of_eq_encode (hwf : wellFormed p i = true) (hws : ws = encode p.durW i) :
    decode p ws = .ok (i, []) := by
  rw [hws, ← List.append_nil (encode p.durW i)]
  exact decodeOfEncode p i [] hwf

/-- Settles O5: each line of R83 is the words of its operation, which is well-formed. -/
theorem workedEncodingsDecode : Obligations.WorkedEncodingsDecode := by
  refine ⟨?_, ?_, ?_, ?_, ?_, ?_, ?_, ?_, ?_, ?_, ?_, ?_, ?_, ?_⟩ <;> exact decode_of_eq_encode rfl rfl

end Sys2Proof
end

section
/-! The checks of R84: which words fail each, and that a word that fails none is the operation of its row
(30_encoding.md R73, R75, R76, R80). -/

namespace Sys2Proof

variable {p : Config.Params} {op : Op} {m : Nat} {w : Word} {xs rest : List Word} {e : DecodeError}

/-! ### The header check -/

/-- The branches of the header check, in the order of R84. -/
theorem checkHeader_cases (m : Nat) (w : Word) :
    (opOfCode (opField w) = none ∧ checkHeader m w = .error .illegalOp) ∨
    ∃ op, opOfCode (opField w) = some op ∧
      ((reservedNonzero op w = true ∧ checkHeader m w = .error .reservedBits) ∨
       (reservedNonzero op w = false ∧ m < (countField w).toNat ∧ checkHeader m w = .error .countTooLarge) ∨
       (reservedNonzero op w = false ∧ ¬ m < (countField w).toNat ∧ checkHeader m w = .ok op)) := by
  cases hop : opOfCode (opField w) with
  | none => simp [checkHeader, hop]
  | some op =>
    cases hr : reservedNonzero op w
    · by_cases hm : m < (countField w).toNat <;> simp [checkHeader, hop, hr, hm]
    · simp [checkHeader, hop, hr]

/-! ### The checks in the bits of the word -/

/-- The reserved values of OP are 0 and those above 10 (R76). -/
theorem opOfCode_eq_none_iff (c : BitVec 4) : opOfCode c = none ↔ ¬ (1 ≤ c.toNat ∧ c.toNat ≤ 10) := by
  revert c; decide

theorem usesSel_eq_false_iff : usesSel op = false ↔ (codeOfOp op).toNat ≠ 1 := by
  cases op <;> decide

theorem usesCount_eq_false_iff : usesCount op = false ↔
    (codeOfOp op).toNat ≠ 3 ∧ (codeOfOp op).toNat ≠ 4 ∧ (codeOfOp op).toNat ≠ 9 := by
  cases op <;> decide

theorem usesAnswer_eq_false_iff : usesAnswer op = false ↔
    (codeOfOp op).toNat ≠ 5 ∧ (codeOfOp op).toNat ≠ 7 ∧ (codeOfOp op).toNat ≠ 8 := by
  cases op <;> decide

theorem answerField_ne_zero_iff : answerField w ≠ 0 ↔ w.getLsbD 15 = true := by
  have hbit : ∀ v : BitVec 1, v ≠ 0 ↔ v.getLsbD 0 = true := by decide
  rw [answerField, hbit, BitVec.getLsbD_extractLsb']
  simp

/-- R75, with the rows named by their OP. -/
theorem reservedNonzero_iff (hop : opOfCode (opField w) = some op) : reservedNonzero op w = true ↔
    reservedLow w ≠ 0 ∨ reservedHigh w ≠ 0 ∨ ((opField w).toNat ≠ 1 ∧ selField w ≠ 0) ∨
    ((opField w).toNat ≠ 3 ∧ (opField w).toNat ≠ 4 ∧ (opField w).toNat ≠ 9 ∧ countField w ≠ 0) ∨
    ((opField w).toNat ≠ 5 ∧ (opField w).toNat ≠ 7 ∧ (opField w).toNat ≠ 8 ∧ w.getLsbD 15 = true) := by
  rw [← codeOfOp_of_opOfCode hop, ← answerField_ne_zero_iff]
  simp only [reservedNonzero, Bool.or_eq_true, Bool.and_eq_true, Bool.not_eq_true', decide_eq_true_eq,
    usesSel_eq_false_iff, usesCount_eq_false_iff, usesAnswer_eq_false_iff, or_assoc, and_assoc]

/-! ### The decoder after the header check -/

theorem decode_of_checkHeader_error (h : checkHeader p.maxSymbols w = .error e) :
    decode p (w :: rest) = .error e := by simp [decode, h]

/-- Past the checks of R84 only the operand words can be missing or carry no symbols. -/
theorem decode_of_checkHeader_ok (h : checkHeader p.maxSymbols w = .ok op) (rest : List Word) :
    decode p (w :: rest) = .error .truncated ∨ decode p (w :: rest) = .error .spareBits ∨
      ∃ r, decode p (w :: rest) = .ok r := by
  simp only [decode, h]
  cases readWords (operandWords p.durW op w) rest with
  | none => exact .inl rfl
  | some r =>
    cases hi : instrOf p.durW op w r.1 with
    | none => simp [hi]
    | some i => simp [hi]

/-- Settles O3: each branch of the header check fixes the decoder's answer, and past it no refusal of R84 is left. -/
theorem decodeRefusesInOrder : Obligations.DecodeRefusesInOrder := by
  intro p w rest op sel count legal reserved
  have hlegal : opOfCode (opField w) = none ↔ ¬ legal := opOfCode_eq_none_iff _
  obtain ⟨hop, hc⟩ | ⟨o, hop, hbranch⟩ := checkHeader_cases p.maxSymbols w
  · simp [decode_of_checkHeader_error hc, hlegal.1 hop]
  · have hl : legal := by simpa [hop] using hlegal
    have hreserved : reservedNonzero o w = true ↔ reserved := reservedNonzero_iff hop
    obtain ⟨hr, hc⟩ | ⟨hr, hm, hc⟩ | ⟨hr, hm, hc⟩ := hbranch
    · simp [decode_of_checkHeader_error hc, hl, hreserved.1 hr]
    · have hm : p.maxSymbols < count.toNat := hm
      simp [decode_of_checkHeader_error hc, hl, ← hreserved, hr, hm]
    · have hm : ¬ p.maxSymbols < count.toNat := hm
      obtain hd | hd | ⟨r, hd⟩ := decode_of_checkHeader_ok hc rest <;> simp [hd, hl, ← hreserved, hr, hm]

/-! ### Legal words at DUR_W = 16 -/

/-- A first word that none of the checks of R84 refuses passes them. -/
theorem checkHeader_ok_of_decode_ne (hop : decode p (w :: rest) ≠ .error .illegalOp)
    (hr : decode p (w :: rest) ≠ .error .reservedBits) (hm : decode p (w :: rest) ≠ .error .countTooLarge) :
    ∃ op, checkHeader p.maxSymbols w = .ok op := by
  obtain ⟨-, hc⟩ | ⟨op, -, ⟨-, hc⟩ | ⟨-, -, hc⟩ | ⟨-, -, hc⟩⟩ := checkHeader_cases p.maxSymbols w
  · exact absurd (decode_of_checkHeader_error hc) hop
  · exact absurd (decode_of_checkHeader_error hc) hr
  · exact absurd (decode_of_checkHeader_error hc) hm
  · exact ⟨op, hc⟩

/-- k of R80, with the rows named by their OP. -/
theorem operandWords_sixteen (op : Op) (w : Word) : operandWords 16 op w =
    if (codeOfOp op).toNat = 1 ∨ (codeOfOp op).toNat = 2 ∨ (codeOfOp op).toNat = 5 then 1
    else if (codeOfOp op).toNat = 3 ∨ (codeOfOp op).toNat = 4 ∨ (codeOfOp op).toNat = 9 then (countField w).toNat
    else 0 := by
  cases op <;> simp [operandWords, codeOfOp, wordsPerSym]

/-- At DUR_W = 16 operand words carry operands whatever they are (R77, R78). -/
theorem instrOf_sixteen (hlen : xs.length = operandWords 16 op w) : ∃ i, instrOf 16 op w xs = some i := by
  cases op with
  | matchEntry | classify =>
    obtain ⟨y, rfl⟩ := List.length_eq_one_iff.1 hlen
    simp [instrOf, symOfWords_sixteen]
  | decodeFrame | decodeRepeat | notify =>
    have hlen : xs.length = (countField w).toNat := hlen.trans (Nat.mul_one _)
    obtain ⟨b, hb⟩ := symsOfWords_sixteen xs
    simp [instrOf, ← hlen, hb]
  | construct =>
    obtain ⟨y, rfl⟩ := List.length_eq_one_iff.1 hlen
    exact ⟨_, rfl⟩
  | process | arm | destroy | take => exact ⟨_, rfl⟩

/-- Settles O4: the k operand words carry an operation's operands, and the instruction read has the words it was read
from. -/
theorem legalWordDecodesToItsRow : Obligations.LegalWordDecodesToItsRow := by
  intro p w rest hdur op count k hop hr hm hk
  obtain ⟨o, ho⟩ := checkHeader_ok_of_decode_ne hop hr hm
  obtain ⟨hw, -⟩ := checkHeader_ok ho
  have hcode : opField w = codeOfOp o := by simpa using congrArg opField hw
  have hwords : operandWords 16 o w = k := by rw [operandWords_sixteen, ← hcode]; rfl
  have hlen : (rest.take k).length = operandWords 16 o w := by rw [hwords, List.length_take_of_le hk]
  obtain ⟨i, hi⟩ := instrOf_sixteen hlen
  rw [← hdur] at hlen hi
  refine ⟨i, ?decodes, headerWord_of_instrOf ho hlen hi, ?operands⟩
  case decodes =>
    have h := decode_of_instrOf ho hlen hi (rest.drop k)
    rwa [List.take_append_drop] at h
  case operands => rw [← hdur, operandsOf_of_instrOf hlen hi]

end Sys2Proof
end

section
/-! The packed records: a SYM word of 32 bits and an EVT record of 33 (30_encoding.md R77, R79). -/

namespace Sys2Proof

/-- A SYM word is {DL, DH} (R77). -/
theorem symOfWords_sixteen_eq_halves (w : Word) :
    symOfWords 16 [w] = some ⟨(w.extractLsb' 0 16).toNat, (w.extractLsb' 16 16).toNat⟩ := by
  have := w.isLt
  have hlow : (w.extractLsb' 0 16).toNat = w.toNat % 2 ^ 16 := by simp
  have hhigh : (w.extractLsb' 16 16).toNat = w.toNat / 2 ^ 16 := by
    rw [BitVec.extractLsb'_toNat, Nat.shiftRight_eq_div_pow]
    omega
  rw [symOfWords_sixteen, hlow, hhigh]

/-- Settles O55: the word carries its two halves, and a word that carries a symbol is that symbol's word. -/
theorem everyWordIsOneSymbol : Obligations.EveryWordIsOneSymbol := by
  intro w
  have hread := symOfWords_sixteen_eq_halves w
  exact ⟨hread, (symOfWords_eq_some hread rfl).2.symm⟩

namespace Machine

/-- Below its repeat bit an EVT record is {command, address}. -/
theorem extractLsb'_evtOfCommand (e : IrCommand) {start len : Nat} (h : start + len ≤ 32) :
    (evtOfCommand e).extractLsb' start len = (e.command ++ e.address).extractLsb' start len :=
  BitVec.extractLsb'_append_eq_of_add_le h

theorem extractLsb'_address_evtOfCommand (e : IrCommand) : (evtOfCommand e).extractLsb' 0 16 = e.address := by
  rw [extractLsb'_evtOfCommand e (by omega), BitVec.extractLsb'_append_eq_right]

theorem extractLsb'_command_evtOfCommand (e : IrCommand) : (evtOfCommand e).extractLsb' 16 16 = e.command := by
  rw [extractLsb'_evtOfCommand e (by omega), BitVec.extractLsb'_append_eq_left]

theorem getLsbD_evtOfCommand (e : IrCommand) : (evtOfCommand e).getLsbD 32 = e.isRepeat :=
  BitVec.getLsbD_append.trans (by simp)

/-- Settles O7: `commandOfEvt` reads the three fields at the bits where `evtOfCommand` puts them. -/
theorem eventRecordLayout : Obligations.EventRecordLayout := by
  intro e
  have haddress := extractLsb'_address_evtOfCommand e
  have hcommand := extractLsb'_command_evtOfCommand e
  have hrepeat := getLsbD_evtOfCommand e
  exact ⟨haddress, hcommand, hrepeat, by rw [commandOfEvt, haddress, hcommand, hrepeat]⟩

end Machine
end Sys2Proof
end

section
/-! The agent of an operation, and a turn that is refused (30_encoding.md R71, R89; 60_exceptions.md R207). -/

namespace Sys2Proof.Machine

variable {s : State} {a : Agent} {ts : List Agent} {i : Instr} {rest : List Word} {e : DecodeError} {r : Refusal}

/-! ### The agent column of R71 -/

theorem agentOf_eq_capture_iff : agentOf i = .capture ↔ ∃ b, i = .notify b := by
  cases i <;> simp [agentOf, opOf, agentOfOp]

theorem agentOf_eq_worker_iff : agentOf i = .worker ↔ i = .take ∨ i = .process ∨ ∃ f, i = .arm f := by
  cases i <;> simp [agentOf, opOf, agentOfOp]

theorem agentOf_eq_host_iff : agentOf i = .host ↔
    (∃ e x, i = .matchEntry e x) ∨ (∃ x, i = .classify x) ∨ (∃ b, i = .decodeFrame b) ∨
      (∃ b, i = .decodeRepeat b) ∨ (∃ f c, i = .construct f c) ∨ ∃ f, i = .destroy f := by
  cases i <;> simp [agentOf, opOf, agentOfOp]

theorem agentOf_ne_sink (i : Instr) : agentOf i ≠ .sink := by cases i <;> simp [agentOf, opOf, agentOfOp]

/-- Settles O39: one row of R71 after the other. -/
theorem operationsHaveOneAgent : Obligations.OperationsHaveOneAgent := fun i =>
  ⟨agentOf_eq_capture_iff, agentOf_eq_worker_iff, agentOf_eq_host_iff, agentOf_ne_sink i⟩

/-! ### A refused turn -/

theorem fetchFor_of_refusalOf (hd : decode s.params (streamOf s.io a) = .error e) (hr : refusalOf e = some r) :
    fetchFor a s = .refuse r := by simp [fetchFor, hd, hr]

theorem fetchFor_of_wrongAgent (hd : decode s.params (streamOf s.io a) = .ok (i, rest)) (ha : agentOf i ≠ a) :
    fetchFor a s = .refuse .wrongAgent := by simp [fetchFor, hd, ha]

theorem step_of_fetchFor_refuse (hts : s.io.turns = a :: ts) (hf : fetchFor a s = .refuse r) :
    step s = .refused r := by simp [step, fetch, hts, hf]

/-- Settles O38: a decode error is refused by its name, and no operation is SINK's. -/
theorem stepRefusesByName : Obligations.StepRefusesByName := by
  intro s a ts hts d
  have hname {e r} (hr : refusalOf e = some r) (hd : d = .error e) : step s = .refused r :=
    step_of_fetchFor_refuse hts (fetchFor_of_refusalOf hd hr)
  have hagent {i rest} (hd : d = .ok (i, rest)) (ha : agentOf i ≠ a) : step s = .refused .wrongAgent :=
    step_of_fetchFor_refuse hts (fetchFor_of_wrongAgent hd ha)
  refine ⟨hname rfl, hname rfl, hname rfl, hname rfl, fun i rest => hagent, fun i rest hd hsink => ?sink⟩
  case sink => exact hagent hd (hsink ▸ agentOf_ne_sink i)

end Sys2Proof.Machine
end

section
/-! MATCH, CLASSIFY and the tolerance windows as inclusive ranges (40_classifier.md R100 to R105). -/

namespace Sys2Proof.Machine

/-- Settles O8: the recorded truth value is Match(s, e). -/
theorem matchRecordsBothWindows : Obligations.MatchRecordsBothWindows := fun e x s =>
  ⟨symMatches s.params x e, rfl, symMatches_iff s.params x e⟩

/-- Settles O9: the recorded class is ClassifyBit(s). -/
theorem classifyFailsOnAmbiguity : Obligations.ClassifyFailsOnAmbiguity := fun x s =>
  ⟨classifyBit s.params x, rfl, classifyBit_bit1_iff s.params x, classifyBit_bit0_iff s.params x,
    classifyBit_none_iff s.params x⟩

/-- Natural subtraction is R105's clamp of the lower end at 0. -/
theorem inWindow_iff_range (margin d n : Nat) :
    inWindow margin d n = true ↔ n + 1 - margin ≤ d ∧ d + 1 ≤ n + margin := by
  rw [inWindow_iff]
  omega

theorem symMatches_iff_ranges (p : Config.Params) (x : Symbol) (e : TimingEntry) :
    symMatches p x e = true ↔
      ((nominal p e).nh + 1 - p.margin ≤ x.dh ∧ x.dh + 1 ≤ (nominal p e).nh + p.margin) ∧
      ((nominal p e).nl + 1 - p.margin ≤ x.dl ∧ x.dl + 1 ≤ (nominal p e).nl + p.margin) := by
  rw [symMatches, Bool.and_eq_true, inWindow_iff_range, inWindow_iff_range]

/-- At the default parameters an entry of nominal ⟨nh, nl⟩ takes nh ± 199 and nl ± 199. -/
theorem symMatches_defaults_iff {e : TimingEntry} {nh nl : Nat} (h : nominal Config.defaults e = ⟨nh, nl⟩)
    (x : Symbol) : symMatches Config.defaults x e = true ↔
      nh + 1 - 200 ≤ x.dh ∧ x.dh ≤ nh + 199 ∧ nl + 1 - 200 ≤ x.dl ∧ x.dl ≤ nl + 199 := by
  have hmargin : Config.defaults.margin = 200 := rfl
  simp only [symMatches_iff_ranges, h, hmargin]
  omega

theorem symMatches_of_margin_zero {p : Config.Params} (h : p.margin = 0) (x : Symbol) (e : TimingEntry) :
    symMatches p x e = false := by
  rw [← Bool.not_eq_true, symMatches_iff_ranges, h]
  omega

/-- Settles O10: the ranges of R105, general, default and empty. -/
theorem windowsAsInclusiveRanges : Obligations.WindowsAsInclusiveRanges :=
  ⟨inWindow_iff_range,
    fun x => ⟨symMatches_defaults_iff rfl x, symMatches_defaults_iff rfl x, symMatches_defaults_iff rfl x,
      symMatches_defaults_iff rfl x⟩,
    fun _ x e h => symMatches_of_margin_zero h x e⟩

end Sys2Proof.Machine
end

section
/-! The ZERO and ONE windows of the source's table: where they overlap, and what lies on their boundaries
(40_classifier.md R103, R106). -/

namespace Sys2Proof.Machine

variable {p : Config.Params} {x : Symbol}

theorem insideEntry_zero_iff (hnom : p.nom = Config.sourceTable) : InsideEntry p x .zero ↔
    560 < x.dh + p.margin ∧ x.dh < 560 + p.margin ∧ 560 < x.dl + p.margin ∧ x.dl < 560 + p.margin := by
  have hzero : nominal p .zero = ⟨560, 560⟩ := by rw [nominal, hnom]; rfl
  simp only [InsideEntry, hzero]
  omega

theorem insideEntry_one_iff (hnom : p.nom = Config.sourceTable) : InsideEntry p x .one ↔
    560 < x.dh + p.margin ∧ x.dh < 560 + p.margin ∧ 1690 < x.dl + p.margin ∧ x.dl < 1690 + p.margin := by
  have hone : nominal p .one = ⟨560, 1690⟩ := by rw [nominal, hnom]; rfl
  simp only [InsideEntry, hone]
  omega

/-- The low duration lies strictly between 1690 - MARGIN and 560 + MARGIN, so 2 * MARGIN ≥ 1132. -/
theorem margin_of_inside_both (hnom : p.nom = Config.sourceTable) (h0 : InsideEntry p x .zero)
    (h1 : InsideEntry p x .one) : 566 ≤ p.margin := by
  obtain ⟨-, -, -, hbelow⟩ := (insideEntry_zero_iff hnom).1 h0
  obtain ⟨-, -, habove, -⟩ := (insideEntry_one_iff hnom).1 h1
  omega

/-- The low duration 1125 = (560 + 1690) / 2 is 565 away from both nominal values. -/
theorem midpoint_inside_both (hnom : p.nom = Config.sourceTable) (h : 566 ≤ p.margin) :
    InsideEntry p ⟨560, 1125⟩ .zero ∧ InsideEntry p ⟨560, 1125⟩ .one := by
  rw [insideEntry_zero_iff hnom, insideEntry_one_iff hnom]
  dsimp only
  omega

/-- Settles O11: from 566 on the midpoint of the two entries matches both. -/
theorem bitWindowsOverlapFrom566 : Obligations.BitWindowsOverlapFrom566 := by
  intro p hnom
  simp only [symMatches_iff]
  have hmid := midpoint_inside_both hnom
  refine ⟨⟨?below, fun h => ⟨_, hmid h⟩⟩, fun h => ⟨_, by decide, hmid h⟩⟩
  case below =>
    rintro ⟨x, h0, h1⟩
    exact margin_of_inside_both hnom h0 h1

/-- Where the windows do not overlap, a duration on a boundary of one bit's window is outside the other's too. -/
theorem isNoBit_of_boundary (hnom : p.nom = Config.sourceTable) (hm : p.margin ≤ 565)
    (hx : x.dh = 560 + p.margin ∨ x.dh + p.margin = 560 ∨ x.dl = 560 + p.margin ∨ x.dl + p.margin = 560 ∨
      x.dl = 1690 + p.margin ∨ x.dl + p.margin = 1690) : IsNoBit p x := by
  have h0 : ¬ InsideEntry p x .zero := by rw [insideEntry_zero_iff hnom]; omega
  have h1 : ¬ InsideEntry p x .one := by rw [insideEntry_one_iff hnom]; omega
  exact iff_of_false h0 h1

end Sys2Proof.Machine
end

section
/-! A full frame with a good leading code and a symbol that is no bit (41_frame_codec.md R121, R125). -/

namespace Sys2Proof.Machine

variable {p : Config.Params} {b : Batch}

/-- The bit loop gives up exactly where one of its symbols is no bit. -/
theorem assembleBits_eq_none_iff {base : Nat} {is : List Nat} (acc : BitVec 16)
    (h : ∀ i ∈ is, base + i < b.count.toNat ∧ base + i < b.sym.length) :
    assembleBits p b base is acc = .ok none ↔ ∃ i ∈ is, SlotIs b.sym (base + i) (IsNoBit p) := by
  induction is generalizing acc with
  | nil => simp [assembleBits]
  | cons i is ih =>
    obtain ⟨hcount, hlen⟩ := h i (by simp)
    have hslot : b.sym[base + i]? = some b.sym[base + i] := List.getElem?_eq_getElem hlen
    have hhead : SlotIs b.sym (base + i) (IsNoBit p) ↔ classifyBit p b.sym[base + i] = .none := by
      simp [SlotIs, hslot, classifyBit_none_iff]
    have ih' := fun acc => ih acc fun j hj => h j (by simp [hj])
    rw [List.exists_mem_cons_iff, hhead, assembleBits, symRead_ok hcount hslot]
    cases hc : classifyBit p b.sym[base + i] with
    | none => simp [hc]
    | bit1 => simpa [hc] using ih' _
    | bit0 => simpa [hc] using ih' _

/-- A symbol 1..16 that is no bit ends the address, one of 17..32 the command. -/
theorem decodePayload_of_isNoBit {k : Nat} (hcount : 33 ≤ b.count.toNat) (hlen : 33 ≤ b.sym.length) (hk : 1 ≤ k)
    (hk' : k ≤ 32) (hbad : SlotIs b.sym k (IsNoBit p)) : decodePayload p b = .ok (.invalid .invalidBit) := by
  have haddress : ∀ i ∈ List.range 16, 1 + i < b.count.toNat ∧ 1 + i < b.sym.length := by
    simp only [List.mem_range]; omega
  have hcommand : ∀ i ∈ List.range 16, 17 + i < b.count.toNat ∧ 17 + i < b.sym.length := by
    simp only [List.mem_range]; omega
  rcases Nat.lt_or_ge k 17 with hk17 | hk17
  · obtain ⟨i, rfl⟩ := Nat.exists_eq_add_of_le hk
    have hnone := (assembleBits_eq_none_iff 0#16 haddress).2 ⟨i, List.mem_range.2 (by omega), hbad⟩
    rw [decodePayload, hnone]
  · obtain ⟨i, rfl⟩ := Nat.exists_eq_add_of_le hk17
    have hnone := (assembleBits_eq_none_iff 0#16 hcommand).2 ⟨i, List.mem_range.2 (by omega), hbad⟩
    obtain ⟨address, haddr⟩ := assembleBits_ok (p := p) 0#16 haddress
    cases address <;> simp [decodePayload, haddr, hnone]

theorem decodeFrame_of_lead (hcount : b.count.toNat = 34) (hlead : SlotIs b.sym 0 fun x => InsideEntry p x .lead) :
    decodeFrame p b = decodePayload p b := by
  obtain ⟨x, hx, hmatch⟩ := hlead
  have hread : symRead b 0 = .ok x := symRead_ok (by omega) hx
  simp [decodeFrame, hcount, hread, (symMatches_iff p x .lead).2 hmatch]

/-- Settles O17: a symbol on a boundary is no bit, and a frame with such a symbol is InvalidBit. -/
theorem boundaryBitFailsTheFrame : Obligations.BoundaryBitFailsTheFrame := by
  intro b s k x hlen hmax hnom hm hlead hk hk' hx hboundary
  have hfit : batchFits s.params.maxSymbols b.length = true := by simp [batchFits, hlen, hmax]
  have hcount : (operandBatch b).count.toNat = 34 := (operandBatch_count hfit).1.trans hlen
  have hbad : SlotIs b k (IsNoBit s.params) := ⟨x, hx, isNoBit_of_boundary hnom hm hboundary⟩
  have hdecode : decodeFrame s.params (operandBatch b) = .ok (.invalid .invalidBit) :=
    (decodeFrame_of_lead hcount hlead).trans
      (decodePayload_of_isNoBit (by omega) (by simp [hlen]) hk hk' hbad)
  exact execDecodeFrame_of_decode hfit hdecode

end Sys2Proof.Machine
end

section
/-! DecodeFrame of a full frame is the outcome the symbols give (41_frame_codec.md R121, R122, R128). -/

namespace Sys2Proof.Machine

variable {p : Config.Params} {b : Batch} {s : State}

theorem SlotIs.lt_length {sym : List Symbol} {k : Nat} {P : Symbol → Prop} (h : SlotIs sym k P) : k < sym.length :=
  h.elim fun _ hx => (List.getElem?_eq_some_iff.1 hx.1).1

theorem getLsbD_or_one_shiftLeft (acc : BitVec 16) {i j : Nat} (hj : j < 16) :
    (acc ||| (1#16 <<< i)).getLsbD j = (acc.getLsbD j || decide (j = i)) := by
  have hbit : (1#16 <<< i).getLsbD j = decide (j = i) := by
    simp only [BitVec.getLsbD_shiftLeft, BitVec.getLsbD_one, hj]
    grind
  rw [BitVec.getLsbD_or, hbit]

/-- The bit loop assembles v where its symbols are the bits of v it still has to set and acc holds the others. -/
theorem assembleBits_of_isBit {v : BitVec 16} {base : Nat} {is : List Nat} {acc : BitVec 16}
    (hcount : ∀ i ∈ is, base + i < b.count.toNat)
    (hbits : ∀ i ∈ is, SlotIs b.sym (base + i) fun x => IsBit p x (v.getLsbD i))
    (hacc : ∀ j < 16, v.getLsbD j = (acc.getLsbD j || (decide (j ∈ is) && v.getLsbD j))) :
    assembleBits p b base is acc = .ok (some v) := by
  induction is generalizing acc with
  | nil =>
    have hdone : acc = v := BitVec.eq_of_getLsbD_eq fun j hj => by simpa using (hacc j hj).symm
    rw [assembleBits, hdone]
  | cons i is ih =>
    obtain ⟨x, hx, hbit⟩ := hbits i (by simp)
    have hrest acc' := ih (acc := acc') (fun j hj => hcount j (by simp [hj])) fun j hj => hbits j (by simp [hj])
    rw [assembleBits, symRead_ok (hcount i (by simp)) hx]
    cases hv : v.getLsbD i with
    | true =>
      simp only [(classifyBit_bit1_iff p x).2 (hv ▸ hbit)]
      refine hrest _ fun j hj => ?_
      rw [getLsbD_or_one_shiftLeft acc hj]
      have := hacc j hj
      grind
    | false =>
      simp only [(classifyBit_bit0_iff p x).2 (hv ▸ hbit)]
      refine hrest _ fun j hj => ?_
      have := hacc j hj
      grind

/-- The whole loop, from the first bit on. -/
theorem assembleBits_range_of_isBit {v : BitVec 16} {base : Nat} (hcount : base + 16 ≤ b.count.toNat)
    (hbits : ∀ i < 16, SlotIs b.sym (base + i) fun x => IsBit p x (v.getLsbD i)) :
    assembleBits p b base (List.range 16) 0#16 = .ok (some v) :=
  assembleBits_of_isBit (by simp only [List.mem_range]; omega) (by simpa only [List.mem_range] using hbits)
    (fun j hj => by simp [hj])

/-- The bit loop ends at a symbol that is no bit: no index after it need be in the buffer. -/
theorem assembleBits_of_isNoBit {base i : Nat} {is : List Nat} (acc : BitVec 16) (hsorted : is.Pairwise (· < ·))
    (hi : i ∈ is) (hcount : base + i < b.count.toNat) (hbad : SlotIs b.sym (base + i) (IsNoBit p)) :
    assembleBits p b base is acc = .ok none := by
  have hlen := hbad.lt_length
  obtain ⟨x, hx, hno⟩ := hbad
  induction is generalizing acc with
  | nil => cases hi
  | cons j is ih =>
    obtain ⟨hfirst, hsorted⟩ := List.pairwise_cons.1 hsorted
    rcases List.mem_cons.1 hi with rfl | hi
    · simp only [assembleBits, symRead_ok hcount hx, (classifyBit_none_iff p x).2 hno]
    · have hlt := hfirst i hi
      have hread : symRead b (base + j) = .ok b.sym[base + j] :=
        symRead_ok (by omega) (List.getElem?_eq_getElem _)
      rw [assembleBits, hread]
      cases hc : classifyBit p b.sym[base + j] with
      | none => simp [hc]
      | bit1 => simpa [hc] using ih _ hsorted hi
      | bit0 => simpa [hc] using ih _ hsorted hi

/-- The payload ends at a symbol that is no bit: no index after it need be in the buffer. -/
theorem decodePayload_stops_at_isNoBit {k : Nat} (hcount : 33 ≤ b.count.toNat) (hk : 1 ≤ k) (hk' : k ≤ 32)
    (hbad : SlotIs b.sym k (IsNoBit p)) : decodePayload p b = .ok (.invalid .invalidBit) := by
  have hstop {base i : Nat} := @assembleBits_of_isNoBit p b base i (List.range 16) 0#16 List.pairwise_lt_range
  rcases Nat.lt_or_ge k 17 with hk17 | hk17
  · obtain ⟨i, rfl⟩ := Nat.exists_eq_add_of_le hk
    rw [decodePayload, hstop (List.mem_range.2 (by omega)) (by omega) hbad]
  · obtain ⟨i, rfl⟩ := Nat.exists_eq_add_of_le hk17
    have hlen := hbad.lt_length
    obtain ⟨address, haddress⟩ := assembleBits_ok (p := p) (b := b) (base := 1) (is := List.range 16) 0#16
      (by simp only [List.mem_range]; omega)
    have hcommand := hstop (List.mem_range.2 (by omega)) (by omega) hbad
    cases address <;> simp [decodePayload, haddress, hcommand]

theorem decodeFrame_of_not_lead (hcount : b.count.toNat = 34)
    (hlead : SlotIs b.sym 0 fun x => ¬ InsideEntry p x .lead) :
    decodeFrame p b = .ok (.invalid .invalidLeadingCode) := by
  obtain ⟨x, hx, hno⟩ := hlead
  have hread : symRead b 0 = .ok x := symRead_ok (by omega) hx
  simp [decodeFrame, hcount, hread, mt (symMatches_iff p x .lead).1 hno]

/-- The codec gives the outcome of the symbols. -/
theorem decodeFrame_of_frameDecodesTo {o : DecodeOutcome} (hcount : b.count.toNat = 34)
    (h : FrameDecodesTo p b.sym o) : decodeFrame p b = .ok o := by
  match o, h with
  | .frame ⟨a, c, rep⟩, ⟨hlead, haddress, hcommand, hrep⟩ =>
    obtain rfl : rep = false := hrep
    rw [decodeFrame_of_lead hcount hlead, decodePayload, assembleBits_range_of_isBit (by omega) haddress,
      assembleBits_range_of_isBit (by omega) hcommand]
  | .invalid .invalidLeadingCode, hlead => exact decodeFrame_of_not_lead hcount hlead
  | .invalid .invalidBit, ⟨hlead, k, hk, hk', hbad⟩ =>
    rw [decodeFrame_of_lead hcount hlead, decodePayload_stops_at_isNoBit (by omega) hk hk' hbad]

/-! ### Every full frame has an outcome -/

theorem exists_bitVec_of_forall_bit {w : Nat} {P : Nat → Bool → Prop} (h : ∀ i < w, ∃ β, P i β) :
    ∃ v : BitVec w, ∀ i < w, P i (v.getLsbD i) := by
  choose f hf using h
  refine ⟨BitVec.ofFnLE fun i => f i i.isLt, fun i hi => ?_⟩
  rw [BitVec.getLsbD_ofFnLE, dif_pos hi]
  exact hf i hi

/-- A symbol that is not "no bit" is the bit that says whether it matches ONE. -/
theorem exists_isBit_of_not_isNoBit {x : Symbol} (h : ¬ IsNoBit p x) : ∃ β, IsBit p x β := by
  by_cases hone : InsideEntry p x .one
  · exact ⟨true, hone, fun hzero => h (iff_of_true hzero hone)⟩
  · exact ⟨false, by_contra fun hzero => h (iff_of_false hzero hone), hone⟩

theorem slotIs_not_of_not_slotIs {sym : List Symbol} {k : Nat} {P : Symbol → Prop} (hk : k < sym.length)
    (h : ¬ SlotIs sym k P) : SlotIs sym k fun x => ¬ P x :=
  ⟨sym[k], List.getElem?_eq_getElem hk, fun hP => h ⟨_, List.getElem?_eq_getElem hk, hP⟩⟩

theorem exists_frameDecodesTo {sym : List Symbol} (hlen : 33 ≤ sym.length) : ∃ o, FrameDecodesTo p sym o := by
  by_cases hlead : SlotIs sym 0 fun x => InsideEntry p x .lead
  case neg => exact ⟨.invalid .invalidLeadingCode, slotIs_not_of_not_slotIs (by omega) hlead⟩
  by_cases hbad : ∃ k, 1 ≤ k ∧ k ≤ 32 ∧ SlotIs sym k (IsNoBit p)
  case pos => exact ⟨.invalid .invalidBit, hlead, hbad⟩
  have hbit (k : Nat) (hk : 1 ≤ k) (hk' : k ≤ 32) : ∃ β, SlotIs sym k fun x => IsBit p x β := by
    obtain ⟨x, hx, hx'⟩ := slotIs_not_of_not_slotIs (by omega) fun h => hbad ⟨k, hk, hk', h⟩
    obtain ⟨β, hβ⟩ := exists_isBit_of_not_isNoBit hx'
    exact ⟨β, x, hx, hβ⟩
  obtain ⟨address, haddress⟩ := exists_bitVec_of_forall_bit (w := 16)
    fun i hi => hbit (1 + i) (by omega) (by omega)
  obtain ⟨command, hcommand⟩ := exists_bitVec_of_forall_bit (w := 16)
    fun i hi => hbit (17 + i) (by omega) (by omega)
  exact ⟨.frame ⟨address, command, false⟩, hlead, haddress, hcommand, rfl⟩

/-! ### DECODE_FRAME -/

theorem execDecodeFrame_of_frameDecodesTo {b : List Symbol} {o : DecodeOutcome} (hlen : b.length = 34)
    (hmax : 34 ≤ s.params.maxSymbols) (h : FrameDecodesTo s.params b o) :
    execDecodeFrame b s = .next (trace (.query (.frameOutcome o)) s) := by
  have hfit : batchFits s.params.maxSymbols b.length = true := by simp [batchFits, hlen, hmax]
  have hcount : (operandBatch b).count.toNat = 34 := (operandBatch_count hfit).1.trans hlen
  exact execDecodeFrame_of_decode hfit (decodeFrame_of_frameDecodesTo hcount h)

/-- Settles O12: every full frame has an outcome, and DECODE_FRAME records it. -/
theorem decodeFrameFollowsTheSymbols : Obligations.DecodeFrameFollowsTheSymbols := by
  intro b s hlen hmax
  obtain ⟨o, ho⟩ := exists_frameDecodesTo (p := s.params) (sym := b) (by omega)
  exact ⟨o, ho, execDecodeFrame_of_frameDecodesTo hlen hmax ho⟩

/-- Settles O13: the frame has an outcome, and DECODE_FRAME records that one and no other. -/
theorem frameOutcomeIsUnique : Obligations.FrameOutcomeIsUnique := by
  intro b s o hlen hmax
  refine ⟨fun h => ?_, execDecodeFrame_of_frameDecodesTo hlen hmax⟩
  obtain ⟨o', ho'⟩ := exists_frameDecodesTo (p := s.params) (sym := b) (by omega)
  have hsame := (execDecodeFrame_of_frameDecodesTo hlen hmax ho').symm.trans h
  obtain rfl : o' = o := by simpa [trace] using hsame
  exact ho'

end Sys2Proof.Machine
end

section
/-! The nominal batches of the pseudo-operations decode to what they encode (30_encoding.md R82; 41_frame_codec.md R122,
R124). -/

namespace Sys2Proof.Machine

variable {p : Config.Params} {s : State}

/-- With any margin above 0 an entry matches its own nominal durations. -/
theorem insideEntry_nominalSymbol (hm : 0 < p.margin) (e : TimingEntry) :
    InsideEntry p (nominalSymbol (nominal p e)) e := by
  simp only [InsideEntry, nominalSymbol]
  omega

/-- A nominal ONE does not match ZERO nor a nominal ZERO ONE, since no symbol matches both. -/
theorem isBit_nominalSymbol (h : Validated p) (β : Bool) :
    IsBit p (nominalSymbol (if β then p.nom.one else p.nom.zero)) β := by
  obtain ⟨hnom, hpos, hmax⟩ := h
  have hnotBoth {x : Symbol} (h0 : InsideEntry p x .zero) (h1 : InsideEntry p x .one) : False := by
    have := margin_of_inside_both hnom h0 h1
    omega
  cases β with
  | true => exact ⟨insideEntry_nominalSymbol hpos .one, (hnotBoth · (insideEntry_nominalSymbol hpos .one))⟩
  | false => exact ⟨insideEntry_nominalSymbol hpos .zero, hnotBoth (insideEntry_nominalSymbol hpos .zero)⟩

@[simp] theorem bitSymbols_length (n : Config.NomTable) (v : BitVec 16) : (bitSymbols n v).length = 16 := by
  simp [bitSymbols]

theorem bitSymbols_getElem? (n : Config.NomTable) (v : BitVec 16) {i : Nat} (hi : i < 16) :
    (bitSymbols n v)[i]? = some (nominalSymbol (if v.getLsbD i then n.one else n.zero)) := by
  simp [bitSymbols, hi]

@[simp] theorem necBatch_length (n : Config.NomTable) (a c : BitVec 16) (t : Symbol) :
    (necBatch n a c t).length = 34 := by
  simp [necBatch]

theorem necBatch_address (n : Config.NomTable) (a c : BitVec 16) (t : Symbol) {i : Nat} (hi : i < 16) :
    (necBatch n a c t)[1 + i]? = (bitSymbols n a)[i]? := by
  rw [necBatch, Nat.add_comm, List.getElem?_cons_succ, List.append_assoc, List.getElem?_append_left (by simpa using hi)]

theorem necBatch_command (n : Config.NomTable) (a c : BitVec 16) (t : Symbol) {i : Nat} (hi : i < 16) :
    (necBatch n a c t)[17 + i]? = (bitSymbols n c)[i]? := by
  rw [necBatch, show 17 + i = 16 + i + 1 by omega, List.getElem?_cons_succ, List.append_assoc,
    List.getElem?_append_right (by simp), bitSymbols_length, Nat.add_sub_cancel_left,
    List.getElem?_append_left (by simpa using hi)]

/-- Bit i of either value stands at its own index, bit 0 first, and no bit is compared with another. -/
theorem frameDecodesTo_necBatch (h : Validated p) (a c : BitVec 16) (t : Symbol) :
    FrameDecodesTo p (necBatch p.nom a c t) (.frame ⟨a, c, false⟩) := by
  obtain ⟨-, hpos, -⟩ := id h
  refine ⟨⟨_, rfl, insideEntry_nominalSymbol hpos .lead⟩, fun i hi => ?address, fun i hi => ?command, rfl⟩
  case address =>
    exact ⟨_, (necBatch_address _ a c t hi).trans (bitSymbols_getElem? _ a hi), isBit_nominalSymbol h _⟩
  case command =>
    exact ⟨_, (necBatch_command _ a c t hi).trans (bitSymbols_getElem? _ c hi), isBit_nominalSymbol h _⟩

/-- Settles O16: the symbols of DECODE_FRAME.NEC are the bits of the two values, and the codec gives what the symbols
say. -/
theorem nominalFrameRoundTrip : Obligations.NominalFrameRoundTrip := fun a c tail _ hval hmax =>
  execDecodeFrame_of_frameDecodesTo (necBatch_length _ a c tail) hmax (frameDecodesTo_necBatch hval a c tail)

end Sys2Proof.Machine
end

section
/-! What DecodeFrame does not read: the tail, the symbols after the first failing one, and any symbol of another count
(41_frame_codec.md R121, R123, R128). -/

namespace Sys2Proof.Machine

variable {p : Config.Params} {v v' : Batch} {b b' : List Symbol} {s : State}

theorem operandBatch_eq_of_length (hlen : b.length = 34) : operandBatch b = ⟨34, b⟩ := by
  simp [operandBatch, countOf, hlen]

theorem execDecodeFrame_congr (hlen : b.length = b'.length)
    (h : decodeFrame s.params (operandBatch b) = decodeFrame s.params (operandBatch b')) :
    execDecodeFrame b s = execDecodeFrame b' s := by
  simp only [execDecodeFrame, withBatch, hlen, h]

/-! ### The tail -/

theorem symRead_congr {i : Nat} (hcount : v.count = v'.count) (hslot : v.sym[i]? = v'.sym[i]?) :
    symRead v i = symRead v' i := by
  rw [symRead, symRead, hcount, hslot]

theorem assembleBits_congr {base : Nat} {is : List Nat} (acc : BitVec 16)
    (h : ∀ i ∈ is, symRead v (base + i) = symRead v' (base + i)) :
    assembleBits p v base is acc = assembleBits p v' base is acc := by
  induction is generalizing acc with
  | nil => rfl
  | cons i is ih =>
    have ih' := fun acc => ih acc fun j hj => h j (by simp [hj])
    simp only [assembleBits, h i (by simp), ih']

/-- DecodeFrame reads the indices 0..32 only. -/
theorem decodeFrame_congr (hcount : v.count = v'.count) (h : ∀ k < 33, symRead v k = symRead v' k) :
    decodeFrame p v = decodeFrame p v' := by
  have hloop {base : Nat} (hbase : base ≤ 17) : assembleBits p v base (List.range 16) 0#16 =
      assembleBits p v' base (List.range 16) 0#16 :=
    assembleBits_congr _ fun i hi => h _ (by have := List.mem_range.1 hi; omega)
  simp only [decodeFrame, decodePayload, hcount, h 0 (by decide), hloop (base := 1) (by decide),
    hloop (base := 17) (by decide)]

theorem decodeFrame_congr_take (hcount : v.count = v'.count) (h : v.sym.take 33 = v'.sym.take 33) :
    decodeFrame p v = decodeFrame p v' :=
  decodeFrame_congr hcount fun k hk => symRead_congr hcount <| by
    rw [← List.getElem?_take_of_lt hk, h, List.getElem?_take_of_lt hk]

/-- Settles O15: writing slot 33 changes no slot below it, and no other slot is read. -/
theorem tailSymbolIsIgnored : Obligations.TailSymbolIsIgnored := by
  refine ⟨fun b x s _ => ?query, fun p v v' hv hv' h => decodeFrame_congr_take (hv.trans hv'.symm) h⟩
  case query =>
    have hlen : (b.set 33 x).length = b.length := List.length_set
    refine execDecodeFrame_congr hlen (decodeFrame_congr_take ?count ?slots)
    case count => rw [operandBatch, operandBatch, countOf, countOf, hlen]
    case slots => exact List.take_set_of_le le_rfl

/-! ### The first failing symbol -/

/-- The outcome of a full frame with a symbol that is no bit is settled by the slots up to that symbol. -/
theorem decodeFrame_of_isNoBit {k : Nat} {lead : Symbol} (hcount : v.count.toNat = 34) (hlead : v.sym[0]? = some lead)
    (hk : 1 ≤ k) (hk' : k ≤ 32) (hbad : SlotIs v.sym k (IsNoBit p)) :
    decodeFrame p v = .ok (.invalid (if symMatches p lead .lead then .invalidBit else .invalidLeadingCode)) := by
  by_cases hmatch : InsideEntry p lead .lead
  · rw [decodeFrame_of_lead hcount ⟨_, hlead, hmatch⟩, decodePayload_stops_at_isNoBit (by omega) hk hk' hbad,
      if_pos ((symMatches_iff p lead .lead).2 hmatch)]
  · rw [decodeFrame_of_not_lead hcount ⟨_, hlead, hmatch⟩, if_neg (mt (symMatches_iff p lead .lead).1 hmatch)]

/-- Settles O56: the outcome is that of the leading code, or is settled by the slots up to the one that is no bit. -/
theorem decodeFrameStopsAtFirstFailure : Obligations.DecodeFrameStopsAtFirstFailure := by
  intro p b b' k x hx htake hfail
  have hslot (j : Nat) (hj : j ≤ k) : b'[j]? = b[j]? := by
    have hj : j < k + 1 := by omega
    rw [← List.getElem?_take_of_lt hj, ← htake, List.getElem?_take_of_lt hj]
  have hx' : b'[k]? = some x := (hslot k le_rfl).trans hx
  have hdecode : decodeFrame p ⟨34, b⟩ = decodeFrame p ⟨34, b'⟩ := by
    rcases hfail with ⟨rfl, hlead⟩ | ⟨hk, hk', hbad⟩
    · rw [decodeFrame_of_not_lead rfl ⟨x, hx, hlead⟩, decodeFrame_of_not_lead rfl ⟨x, hx', hlead⟩]
    · obtain ⟨hlen, -⟩ := List.getElem?_eq_some_iff.1 hx
      have hfirst : b[0]? = some b[0] := List.getElem?_eq_getElem _
      rw [decodeFrame_of_isNoBit rfl hfirst hk hk' ⟨x, hx, hbad⟩,
        decodeFrame_of_isNoBit rfl ((hslot 0 (by omega)).trans hfirst) hk hk' ⟨x, hx', hbad⟩]
  refine ⟨hdecode, fun s hs hlen hlen' => execDecodeFrame_congr (hlen'.trans hlen.symm) ?_⟩
  rw [operandBatch_eq_of_length hlen, operandBatch_eq_of_length hlen', hs, hdecode]

/-! ### Another count -/

theorem decodeFrame_of_count_ne (h : v.count.toNat ≠ 34) :
    decodeFrame p v = .ok (.invalid .unexpectedSymbolCount) := if_pos h

/-- Settles O14: the count is checked before any slot is read. -/
theorem decodeFrameNeedsThirtyFour : Obligations.DecodeFrameNeedsThirtyFour :=
  ⟨fun _ _ hlen hfit => execDecodeFrame_of_decode hfit
      (decodeFrame_of_count_ne ((operandBatch_count hfit).1.trans_ne hlen)),
    fun _ _ _ h => decodeFrame_of_count_ne h⟩

end Sys2Proof.Machine
end

section
/-! DecodeRepeat reads the count and symbol 0 (41_frame_codec.md R126, R127). -/

namespace Sys2Proof.Machine

variable {p : Config.Params} {v : Batch} {b : List Symbol} {s : State}

theorem decodeRepeat_of_count_ne (h : v.count.toNat ≠ 2) :
    decodeRepeat p v = .ok (.invalid .unexpectedSymbolCount) := if_pos h

theorem decodeRepeat_of_first {x : Symbol} (hcount : v.count.toNat = 2) (hx : v.sym[0]? = some x) :
    decodeRepeat p v = .ok (if symMatches p x .rep then .isRepeat else .invalid .invalidLeadingCode) := by
  have hread : symRead v 0 = .ok x := symRead_ok (by omega) hx
  simp only [decodeRepeat, hcount, hread, ne_eq, not_true_eq_false, if_false]
  split <;> rfl

/-- Settles O18: the two checks of R126, count and then symbol 0, each decide an outcome. -/
theorem decodeRepeatReadsFirstOfTwo : Obligations.DecodeRepeatReadsFirstOfTwo := by
  intro b s hfit
  obtain ⟨hcount, -⟩ := operandBatch_count hfit
  by_cases hlen : b.length = 2
  case neg =>
    exact ⟨_, execDecodeRepeat_of_decode hfit (decodeRepeat_of_count_ne (hcount.trans_ne hlen)), by simp [hlen]⟩
  have hx : b[0]? = some b[0] := List.getElem?_eq_getElem _
  refine ⟨_, execDecodeRepeat_of_decode hfit (decodeRepeat_of_first (hcount.trans hlen) hx), ?_⟩
  by_cases hmatch : InsideEntry s.params b[0] .rep <;> simp [SlotIs, hlen, symMatches_iff, hmatch]

/-- Settles O19: symbol 0 is nominal REPEAT, which REPEAT matches, and the second symbol is not read. -/
theorem nominalRepeatDecodes : Obligations.NominalRepeatDecodes := by
  rintro tail s ⟨-, hpos, -⟩ hmax
  have hmatch := (symMatches_iff _ _ _).2 (insideEntry_nominalSymbol hpos .rep)
  have hfit : batchFits s.params.maxSymbols (repBatch s.params.nom tail).length = true := by
    simp [batchFits, repBatch, hmax]
  refine execDecodeRepeat_of_decode hfit ?_
  rw [decodeRepeat_of_first (operandBatch_count hfit).1 rfl]
  exact congrArg Except.ok (if_pos hmatch)

end Sys2Proof.Machine
end

section
/-! The lifecycle operations where they are accepted: CONSTRUCT, ARM and DESTROY (42_receive_loop.md R140, R141, R147,
R150). -/

namespace Sys2Proof.Machine

variable {s : State}

/-! ### CONSTRUCT -/

theorem constructAccepted_iff : constructAccepted s = true ↔ s.ls = .unbuilt := decide_eq_true_iff

theorem execConstruct_of_unbuilt (f : Answer) (c : Word) (hls : s.ls = .unbuilt) :
    execConstruct f c s = .next (construct f c s) := if_pos (constructAccepted_iff.2 hls)

theorem execConstruct_of_not_unbuilt (f : Answer) (c : Word) (hls : s.ls ≠ .unbuilt) :
    execConstruct f c s = .refused .lifecycle := if_neg (mt constructAccepted_iff.1 hls)

/-- Settles O21: both answers complete, and what each writes is the state law of CONSTRUCT. -/
theorem constructBuildsOrFaults : Obligations.ConstructBuildsOrFaults := fun c s hls =>
  ⟨⟨_, execConstruct_of_unbuilt .success c hls, congrArg registers (construct_success c s)⟩,
    ⟨_, execConstruct_of_unbuilt .failure c hls, congrArg registers (construct_failure c s)⟩⟩

/-! ### ARM -/

theorem execArm_of_rearmPending (f : Answer) (hls : s.ls = .rearmPending) :
    execArm f s = .next (rearm f s.cfg s) := by
  rw [execArm, if_pos (armEnabled_iff.2 hls), readCfg_ok (by simp [hls])]

/-- Settles O27: both answers complete, and what each writes is the state law of ARM. -/
theorem armRearmsOrFaults : Obligations.ArmRearmsOrFaults := fun s hls =>
  ⟨⟨_, execArm_of_rearmPending .success hls, congrArg registers (rearm_success s.cfg s)⟩,
    ⟨_, execArm_of_rearmPending .failure hls, congrArg registers (rearm_failure s.cfg s)⟩⟩

/-! ### DESTROY -/

theorem destroyAccepted_iff_running : destroyAccepted s = true ↔
    s.ls = .wait ∨ s.ls = .haveBatch ∨ s.ls = .rearmPending ∨ s.ls = .faulted := by
  simp [destroyAccepted, or_assoc]

theorem execDestroy_of_accepted (f : Answer) (ha : destroyAccepted s = true) :
    execDestroy f s = .next (if s.h then teardown f s else abandon s) := if_pos ha

theorem execDestroy_of_handle (f : Answer) (ha : destroyAccepted s = true) (hh : s.h = true) :
    execDestroy f s = .next (teardown f s) := by rw [execDestroy_of_accepted f ha, if_pos hh]

theorem execDestroy_of_no_handle (f : Answer) (ha : destroyAccepted s = true) (hh : s.h = false) :
    execDestroy f s = .next (abandon s) := by rw [execDestroy_of_accepted f ha, if_neg (by simp [hh])]

theorem execDestroy_of_not_accepted (f : Answer) (ha : ¬ destroyAccepted s = true) :
    execDestroy f s = .refused .lifecycle := if_neg ha

/-- Settles O28: the handle decides between a disable call, whose answer decides the rest, and none. -/
theorem destroyStopsOrFaults : Obligations.DestroyStopsOrFaults := by
  intro s hls
  have ha := destroyAccepted_iff_running.2 hls
  refine ⟨fun hh => ⟨_, execDestroy_of_handle .success ha hh, ?stopped⟩,
    fun hh => ⟨_, execDestroy_of_handle .failure ha hh, ?faulted⟩,
    fun f hh => ⟨_, execDestroy_of_no_handle f ha hh, ?abandoned⟩⟩
  case stopped => exact congrArg registers (teardown_success s)
  case faulted => exact congrArg registers (teardown_failure s)
  case abandoned => exact congrArg registers (abandon_eq s)

/-! ### Refusals -/

theorem not_destroyAccepted_iff : ¬ destroyAccepted s = true ↔ s.ls = .unbuilt ∨ s.ls = .stopped := by
  rw [destroyAccepted_iff, not_and_or, not_not, not_not]

/-- Settles O22: an operation that is accepted completes, and one that is not is refused. -/
theorem lifecycleRefusals : Obligations.LifecycleRefusals := by
  intro f c s
  refine ⟨⟨fun h hls => ?construct, execConstruct_of_not_unbuilt f c⟩, ⟨fun h => ?destroy, fun hls => ?refused⟩⟩
  case construct => exact absurd ((execConstruct_of_unbuilt f c hls).symm.trans h) nofun
  case destroy =>
    exact not_destroyAccepted_iff.1 fun ha => absurd ((execDestroy_of_accepted f ha).symm.trans h) nofun
  case refused => exact execDestroy_of_not_accepted f (not_destroyAccepted_iff.2 hls)

end Sys2Proof.Machine
end

section
/-! PROCESS where it is enabled: the route of a batch by its count, and what the batch decodes to
(42_receive_loop.md R143 to R146). -/

namespace Sys2Proof.Machine

variable {s t : State} {b : Batch}

theorem execProcess_of_routeBatch (hls : s.ls = .haveBatch) (hr : routeBatch s.wb s = .ok t) :
    execProcess s = .next (finishProcess t) := by
  simp only [execProcess, if_pos (processEnabled_iff.2 hls), process, readWork_ok hls, hr, ofRead]

/-! ### A full frame (R144) -/

theorem routeBatch_of_frame {fr : Frame} (hcount : b.count.toNat = 34)
    (hd : decodeFrame s.params b = .ok (.frame fr)) :
    routeBatch b s = .ok (trace (.disp .publishedFrame)
      (publish ⟨fr.address, fr.command, false⟩ (rememberFrame fr.address fr.command s))) := by
  rw [routeBatch, if_pos hcount, processFrame, hd]

theorem routeBatch_of_invalid_frame {r : Reason} (hcount : b.count.toNat = 34)
    (hd : decodeFrame s.params b = .ok (.invalid r)) :
    routeBatch b s = .ok (trace (.disp (invalidDisposition r)) s) := by
  rw [routeBatch, if_pos hcount, processFrame, hd]

/-- Settles O23: the batch has an outcome, the codec gives it, and each outcome has its route. -/
theorem processFullFrame : Obligations.ProcessFullFrame := by
  intro s hls hcount hlen
  have hcount : s.wb.count.toNat = 34 := by simp [hcount]
  obtain ⟨o, ho⟩ := exists_frameDecodesTo (p := s.params) (sym := s.wb.sym) (by omega)
  have hd := decodeFrame_of_frameDecodesTo hcount ho
  match o, ho, hd with
  | .frame f, ho, hd => exact ⟨_, _, ho, execProcess_of_routeBatch hls (routeBatch_of_frame hcount hd), rfl⟩
  | .invalid .invalidLeadingCode, ho, hd =>
    exact ⟨_, _, ho, execProcess_of_routeBatch hls (routeBatch_of_invalid_frame hcount hd), rfl⟩
  | .invalid .invalidBit, ho, hd =>
    exact ⟨_, _, ho, execProcess_of_routeBatch hls (routeBatch_of_invalid_frame hcount hd), rfl⟩

/-! ### A repeat (R145) -/

theorem routeBatch_of_repeat_count (hcount : b.count.toNat = 2) : routeBatch b s = processRepeat b s := by
  rw [routeBatch, if_neg (by simp [hcount]), if_pos hcount]

theorem routeBatch_of_repeat (hcount : b.count.toNat = 2) (hd : decodeRepeat s.params b = .ok .isRepeat)
    (hv : s.lf.valid = true) : routeBatch b s =
      .ok (trace (.disp .publishedRepeat) (publish ⟨s.lf.address, s.lf.command, true⟩ s)) := by
  simp only [routeBatch_of_repeat_count hcount, processRepeat, hd, if_pos hv, publishRepeat, readLast_ok hv]

theorem routeBatch_of_repeat_without_prior (hcount : b.count.toNat = 2)
    (hd : decodeRepeat s.params b = .ok .isRepeat) (hv : s.lf.valid = false) :
    routeBatch b s = .ok (trace (.disp .dropRepeatNoPrior) s) := by
  simp only [routeBatch_of_repeat_count hcount, processRepeat, hd, hv, Bool.false_eq_true, if_false]

theorem routeBatch_of_invalid_repeat {r : Reason} (hcount : b.count.toNat = 2)
    (hd : decodeRepeat s.params b = .ok (.invalid r)) :
    routeBatch b s = .ok (trace (.disp .dropInvalidLeading) s) := by
  simp only [routeBatch_of_repeat_count hcount, processRepeat, hd]

/-- Settles O24: symbol 0 and LF.valid choose the route. -/
theorem processRepeatBatch : Obligations.ProcessRepeatBatch := by
  intro s x hls hcount hx
  have hcount : s.wb.count.toNat = 2 := by simp [hcount]
  have hd := decodeRepeat_of_first (p := s.params) hcount hx
  by_cases hmatch : InsideEntry s.params x .rep
  case neg =>
    rw [if_neg (mt (symMatches_iff s.params x .rep).1 hmatch)] at hd
    exact ⟨_, execProcess_of_routeBatch hls (routeBatch_of_invalid_repeat hcount hd),
      (absurd · hmatch), (absurd · hmatch), fun _ => rfl⟩
  rw [if_pos ((symMatches_iff s.params x .rep).2 hmatch)] at hd
  cases hv : s.lf.valid with
  | true =>
    exact ⟨_, execProcess_of_routeBatch hls (routeBatch_of_repeat hcount hd hv),
      fun _ _ => rfl, fun _ => nofun, (absurd hmatch ·)⟩
  | false =>
    exact ⟨_, execProcess_of_routeBatch hls (routeBatch_of_repeat_without_prior hcount hd hv),
      fun _ => nofun, fun _ _ => rfl, (absurd hmatch ·)⟩

/-! ### Any other count (R146) -/

theorem routeBatch_of_other_count (h34 : b.count.toNat ≠ 34) (h2 : b.count.toNat ≠ 2) :
    routeBatch b s = .ok (trace (.disp .dropCount) s) := by
  rw [routeBatch, if_neg h34, if_neg h2]

/-- Settles O25: neither test of the route succeeds, so no slot is read. -/
theorem processIgnoresOtherCounts : Obligations.ProcessIgnoresOtherCounts := by
  intro s hls h34 h2
  have h34 : s.wb.count.toNat ≠ 34 := fun h => h34 (BitVec.eq_of_toNat_eq h)
  have h2 : s.wb.count.toNat ≠ 2 := fun h => h2 (BitVec.eq_of_toNat_eq h)
  exact ⟨_, execProcess_of_routeBatch hls (routeBatch_of_other_count h34 h2), rfl⟩

end Sys2Proof.Machine
end

section
/-! The events, the dispositions and LF over every step: only PROCESS publishes (42_receive_loop.md R149, R154). -/

namespace Sys2Proof.Machine

variable {s t : State} {i : Instr}

/-- No batch is processed from s to t: no event, no disposition, and of LF at most the valid bit is cleared, from
UNBUILT (R141). -/
structure ProcessesNoBatch (s t : State) : Prop where
  events : t.eh = s.eh
  disposition : ∀ d, t.tr ≠ s.tr ++ [.disp d]
  lastFrame : t.lf = s.lf ∨ (s.ls = .unbuilt ∧ t.lf = { s.lf with valid := false })

theorem ProcessesNoBatch.of_eq (heh : t.eh = s.eh) (htr : t.tr = s.tr) (hlf : t.lf = s.lf) : ProcessesNoBatch s t :=
  ⟨heh, fun d => by simp [htr], .inl hlf⟩

theorem deliver_processesNoBatch (b : Batch) (s : State) : ProcessesNoBatch s (deliver b s) := by
  rw [deliver_eq]
  refine ⟨rfl, fun d => ?_, .inl rfl⟩
  cases hfull : s.rs.full <;> simp

/-- An operation processes the batch in WB, or none. -/
theorem exec_processes (h : exec i s = .next t) : ProcessesNoBatch s t ∨
    (s.ls = .haveBatch ∧ ∃ s', routeBatch s.wb s = .ok s' ∧ t = finishProcess s') := by
  obtain rfl | ⟨q, rfl⟩ | ⟨f, c, hls, rfl⟩ | hprocess | ⟨f, -, rfl⟩ | ⟨f, -, -, -, rfl⟩ | ⟨-, -, -, rfl⟩ |
    ⟨b, -, -, -, -, rfl⟩ | ⟨-, -, rfl⟩ := exec_next h
  · exact .inl (.of_eq rfl rfl rfl)
  · exact .inl ⟨rfl, fun d => by simp, .inl rfl⟩
  · cases f <;> exact .inl ⟨rfl, fun d => by simp [construct_success, construct_failure], .inr ⟨hls, rfl⟩⟩
  · exact .inr hprocess
  · cases f <;> exact .inl (.of_eq rfl rfl rfl)
  · cases f <;> exact .inl (.of_eq rfl rfl rfl)
  · exact .inl (.of_eq rfl rfl rfl)
  · exact .inl (deliver_processesNoBatch _ s)
  · exact .inl (.of_eq rfl rfl rfl)

theorem step_processes (h : step s = .next t) : ProcessesNoBatch s t ∨
    (s.ls = .haveBatch ∧ ∃ io s', routeBatch s.wb { s with io := io } = .ok s' ∧ t = finishProcess s') := by
  obtain ⟨io, rfl | ⟨i, -, he⟩⟩ := step_next_exec h
  · exact .inl (.of_eq rfl rfl rfl)
  · obtain hnone | ⟨hls, s', hr, ht⟩ := exec_processes he
    · exact .inl ⟨hnone.events, hnone.disposition, hnone.lastFrame⟩
    · exact .inr ⟨hls, io, s', hr, ht⟩

/-- Settles O44: an event needs a processed batch, and the route of the batch says which. -/
theorem eventsOnlyFromPublishedBatches : Obligations.EventsOnlyFromPublishedBatches := by
  intro s t h
  obtain hnone | ⟨hls, io, s', hr, rfl⟩ := step_processes h
  · exact .inl ⟨hnone.events, hnone.disposition _, hnone.disposition _⟩
  · obtain ⟨fr, -, -, rfl⟩ | ⟨-, -, -, rfl⟩ | ⟨d, hframe, hrepeat, rfl⟩ := routeBatch_cases hr
    · exact .inr ⟨hls, rfl, _, rfl, .inl ⟨rfl, rfl⟩⟩
    · exact .inr ⟨hls, rfl, _, rfl, .inr ⟨rfl, rfl⟩⟩
    · exact .inl ⟨rfl, by simpa [finishProcess_eq] using hframe, by simpa [finishProcess_eq] using hrepeat⟩

/-! ### What a decoded frame says of the symbols -/

/-- The bit loop has read the symbol of every bit it assembled. -/
theorem lt_length_of_assembleBits {p : Config.Params} {b : Batch} {base i : Nat} {is : List Nat} {acc v : BitVec 16}
    (h : assembleBits p b base is acc = .ok (some v)) (hi : i ∈ is) : base + i < b.sym.length := by
  induction is generalizing acc with
  | nil => cases hi
  | cons j is ih =>
    obtain ⟨x, hread, -, hx⟩ | hread := symRead_cases b (base + j)
    case inr => simp [assembleBits, hread] at h
    obtain ⟨hlen, -⟩ := List.getElem?_eq_some_iff.1 hx
    rcases List.mem_cons.1 hi with rfl | hi
    · exact hlen
    · simp only [assembleBits, hread] at h
      split at h
      · cases h
      · exact ih h hi
      · exact ih h hi

/-- A frame's last command bit is symbol 32. -/
theorem length_of_decodePayload_frame {p : Config.Params} {b : Batch} {fr : Frame}
    (h : decodePayload p b = .ok (.frame fr)) : 33 ≤ b.sym.length := by
  unfold decodePayload at h
  split at h
  · cases h
  · cases h
  · split at h
    · cases h
    · cases h
    · exact lt_length_of_assembleBits (i := 15) ‹_› (by decide)

theorem decodeFrame_frame_inv {p : Config.Params} {b : Batch} {fr : Frame}
    (h : decodeFrame p b = .ok (.frame fr)) : decodePayload p b = .ok (.frame fr) := by
  unfold decodeFrame at h
  split at h
  · cases h
  · split at h
    · cases h
    · split at h
      · exact h
      · cases h

/-- The converse of decodeFrame_of_frameDecodesTo for a frame, whatever slots the buffer has: its symbols were read, so
they have an outcome, which is this frame. -/
theorem frameDecodesTo_of_decodeFrame {p : Config.Params} {b : Batch} {fr : Frame} (hcount : b.count.toNat = 34)
    (h : decodeFrame p b = .ok (.frame fr)) : FrameDecodesTo p b.sym (.frame fr) := by
  obtain ⟨o, ho⟩ := exists_frameDecodesTo (p := p) (length_of_decodePayload_frame (decodeFrame_frame_inv h))
  obtain rfl : o = .frame fr := by simpa using (decodeFrame_of_frameDecodesTo hcount ho).symm.trans h
  exact ho

/-- Settles O45: only the route of a decoded frame writes LF, and only CONSTRUCT clears it. -/
theorem lastFrameWriters : Obligations.LastFrameWriters := by
  intro s t h
  obtain hnone | ⟨hls, io, s', hr, rfl⟩ := step_processes h
  · exact hnone.lastFrame.imp_right .inr
  · obtain ⟨fr, hd, hcount, rfl⟩ | ⟨-, -, -, rfl⟩ | ⟨d, -, -, rfl⟩ := routeBatch_cases hr
    · have hframe := frameDecodesTo_of_decodeFrame hcount hd
      obtain ⟨address, command, isRepeat⟩ := fr
      obtain ⟨-, -, -, rfl⟩ := id hframe
      exact .inr (.inl ⟨hls, BitVec.eq_of_toNat_eq hcount, rfl, hframe, rfl, rfl⟩)
    · exact .inl rfl
    · exact .inl rfl

end Sys2Proof.Machine
end


section
/-! The loop state over every step: who moves LS, and that nothing moves it on from STOPPED (42_receive_loop.md R140,
R148, R152). -/

namespace Sys2Proof.Machine

variable {s t : State} {i : Instr}

/-- Agent a arms the source into WAIT, with the CFG then in the register: HOST from UNBUILT, or WORKER from
REARM_PENDING, which keeps CFG (R141, R147). -/
def ArmsIntoWait (a : Agent) (s t : State) : Prop :=
  t.ls = .wait ∧ t.pa = true ∧ t.portLog = s.portLog ++ [.arm t.cfg .success] ∧
    (s.ls = .unbuilt ∨ (s.ls = .rearmPending ∧ a = .worker ∧ t.cfg = s.cfg))

/-- What agent a's operation can do to LS (R140). -/
def MovesLoop (a : Agent) (s t : State) : Prop :=
  t.ls = s.ls ∨ (t.ls = .faulted ∨ t.ls = .stopped) ∨ ArmsIntoWait a s t ∨
    (s.ls = .wait ∧ s.rs.full = true ∧ t.ls = .haveBatch) ∨ (s.ls = .haveBatch ∧ t.ls = .rearmPending)

theorem construct_movesLoop (a : Agent) (f : Answer) (c : Word) (hls : s.ls = .unbuilt) :
    MovesLoop a s (construct f c s) := by
  cases f with
  | success => exact .inr (.inr (.inl ⟨rfl, rfl, rfl, .inl hls⟩))
  | failure => exact .inr (.inl (.inl rfl))

theorem rearm_movesLoop (f : Answer) (hls : s.ls = .rearmPending) : MovesLoop .worker s (rearm f s.cfg s) := by
  cases f with
  | success => exact .inr (.inr (.inl ⟨rfl, rfl, rfl, .inr ⟨hls, rfl, rfl⟩⟩))
  | failure => exact .inr (.inl (.inl rfl))

theorem teardown_movesLoop (a : Agent) (f : Answer) (s : State) : MovesLoop a s (teardown f s) := by
  cases f with
  | success => exact .inr (.inl (.inr rfl))
  | failure => exact .inr (.inl (.inl rfl))

theorem exec_movesLoop (h : exec i s = .next t) : MovesLoop (agentOf i) s t := by
  cases i with
  | matchEntry e x => cases h; exact .inl rfl
  | classify x => cases h; exact .inl rfl
  | decodeFrame b => obtain ⟨-, o, -, rfl⟩ := execDecodeFrame_next h; exact .inl rfl
  | decodeRepeat b => obtain ⟨-, o, -, rfl⟩ := execDecodeRepeat_next h; exact .inl rfl
  | construct f c =>
    obtain ⟨hls, rfl⟩ := execConstruct_next h
    exact construct_movesLoop _ f c hls
  | process =>
    obtain ⟨hls, s', -, rfl⟩ | ⟨-, rfl⟩ := execProcess_next h
    · exact .inr (.inr (.inr (.inr ⟨hls, rfl⟩)))
    · exact .inl rfl
  | arm f =>
    obtain ⟨hls, rfl⟩ | ⟨-, rfl⟩ := execArm_next h
    · exact rearm_movesLoop f hls
    · exact .inl rfl
  | destroy f =>
    obtain ⟨-, -, ⟨-, rfl⟩ | ⟨-, rfl⟩⟩ := execDestroy_next h
    · exact teardown_movesLoop _ f s
    · exact .inr (.inl (.inr rfl))
  | notify b =>
    obtain ⟨-, ⟨-, -, rfl⟩ | ⟨-, rfl⟩⟩ := execNotify_next h
    · exact .inl (by rw [deliver_eq])
    · exact .inl rfl
  | take =>
    obtain ⟨hls, hfull, rfl⟩ | ⟨-, rfl⟩ := execTake_next h
    · exact .inr (.inr (.inr (.inl ⟨hls, hfull, rfl⟩)))
    · exact .inl rfl

/-- A step moves LS as one agent's operation can, and only on that agent's turn. -/
theorem step_movesLoop (h : step s = .next t) :
    ∃ a, MovesLoop a s t ∧ (t.ls ≠ s.ls → ∃ ts, s.io.turns = a :: ts) := by
  obtain rfl | rfl | ⟨a, ts, i, rest, hts, -, rfl, -, he⟩ := step_next h
  · exact ⟨.host, .inl rfl, (absurd rfl ·)⟩
  · exact ⟨.host, .inl rfl, (absurd rfl ·)⟩
  · exact ⟨_, exec_movesLoop (s := consume _ rest s) he, fun _ => ⟨ts, hts⟩⟩

/-- TAKE and PROCESS are enabled in states of their own. -/
theorem eq_arm_of_enabled (hls : s.ls = .rearmPending) (ha : agentOf i = .worker) (he : enabled i s = true) :
    ∃ f, i = .arm f := by
  obtain rfl | rfl | harm := agentOf_eq_worker_iff.1 ha
  · exact absurd (hls.symm.trans (takeEnabled_iff.1 he).1) nofun
  · exact absurd (hls.symm.trans (processEnabled_iff.1 he)) nofun
  · exact harm

/-- Settles O47: of the moves of LS only an arm call that succeeds ends in WAIT, and REARM_PENDING has no other way on
but to FAULTED and STOPPED. -/
theorem rearmIsUnconditional : Obligations.RearmIsUnconditional := by
  intro s t h
  obtain ⟨a, hmove, hturn⟩ := step_movesLoop h
  have hworker : ∀ i, s.ls = .rearmPending → agentOf i = .worker → enabled i s = true → ∃ f, i = .arm f :=
    fun i => eq_arm_of_enabled
  obtain hstay | hhalt | ⟨hto, hpa, hcall, hfrom⟩ | ⟨hfrom, hfull, hto⟩ | ⟨hfrom, hto⟩ := hmove
  · rw [hstay]
    exact ⟨(absurd · ·), fun hls hls' => absurd (hls.symm.trans hls') nofun, .inl, .inl, .inl, hworker⟩
  · obtain hto | hto := hhalt <;> simpa [hto] using hworker
  · rw [hto]
    refine ⟨fun _ _ => ⟨hfrom.imp_right (·.1), hpa, hcall⟩, fun hls _ => ?rearm, fun _ => .inr (.inl rfl), nofun, nofun,
      hworker⟩
    case rearm =>
      obtain hu | ⟨-, rfl, hcfg⟩ := hfrom
      · exact absurd (hls.symm.trans hu) nofun
      · exact ⟨hcfg ▸ hcall, hturn (by simp [hto, hls])⟩
  · simp [hfrom, hto, hfull]
  · simp [hfrom, hto]

/-! ### STOPPED -/

/-- With no callback registered nothing is delivered, and every other operation but a query needs another loop state. -/
theorem exec_of_stopped (hls : s.ls = .stopped) (hcb : s.cb = false) (h : exec i s = .next t) :
    t = s ∨ ∃ q, t = trace (.query q) s := by
  have hne {l : LoopState} (h : s.ls = l) (hl : .stopped ≠ l) : t = s ∨ ∃ q, t = trace (.query q) s :=
    absurd (hls.symm.trans h) hl
  obtain hwait | hquery | ⟨f, c, hls', -⟩ | ⟨hls', -⟩ | ⟨f, hls', -⟩ | ⟨f, -, hrun, -⟩ | ⟨-, hrun, -⟩ |
    ⟨b, -, -, hcb', -, -⟩ | ⟨hls', -, -⟩ := exec_next h
  · exact .inl hwait
  · exact .inr hquery
  · exact hne hls' nofun
  · exact hne hls' nofun
  · exact hne hls' nofun
  · exact absurd hls hrun
  · exact absurd hls hrun
  · exact absurd (hcb.symm.trans hcb') nofun
  · exact hne hls' nofun

/-- Settles O48: by the invariant CB = 0 in STOPPED, so only a query is left to complete. -/
theorem stoppedIsTerminal : Obligations.StoppedIsTerminal := by
  intro s t hinv hls h
  obtain ⟨hcb, -⟩ := hinv.lifecycle.closed (.inr hls)
  obtain ⟨io, rfl | ⟨i, -, he⟩⟩ := step_next_exec h
  · exact ⟨rfl, .inl rfl⟩
  · obtain rfl | ⟨q, rfl⟩ := exec_of_stopped (s := { s with io := io }) hls hcb he
    · exact ⟨rfl, .inl rfl⟩
    · exact ⟨rfl, .inr ⟨q, rfl⟩⟩

end Sys2Proof.Machine
end

section
/-! The calls to the Pulse Capture Source, as the model records them (42_receive_loop.md R142, R151; log 8). -/

namespace Sys2Proof.Machine

variable {s t : State} {i : Instr}

theorem construct_portLog (f : Answer) (c : Word) (s : State) :
    (construct f c s).portLog = s.portLog ++ [.arm c f] := by cases f <;> rfl

theorem construct_cfg (f : Answer) (c : Word) (s : State) : (construct f c s).cfg = c := by cases f <;> rfl

theorem rearm_portLog (f : Answer) (c : Word) (s : State) : (rearm f c s).portLog = s.portLog ++ [.arm c f] := by
  cases f <;> rfl

theorem teardown_portLog (f : Answer) (s : State) : (teardown f s).portLog = s.portLog ++ [.disable f] := by
  cases f <;> rfl

/-- A call is an arm with CFG whose answer PA becomes, or a disable of a held handle, released on success. -/
def CallsPort (s t : State) : Prop :=
  (∃ f, t.portLog = s.portLog ++ [.arm t.cfg f] ∧ (t.pa = true ↔ f = .success) ∧ (t.ls = .wait ∨ t.ls = .faulted)) ∨
  (∃ f, t.portLog = s.portLog ++ [.disable f] ∧ s.h = true ∧ (t.h = false ↔ f = .success))

theorem construct_callsPort (f : Answer) (c : Word) (s : State) : CallsPort s (construct f c s) := by
  cases f with
  | success => exact .inl ⟨.success, rfl, iff_of_true rfl rfl, .inl rfl⟩
  | failure => exact .inl ⟨.failure, rfl, iff_of_false nofun nofun, .inr rfl⟩

theorem rearm_callsPort (f : Answer) (s : State) : CallsPort s (rearm f s.cfg s) := by
  cases f with
  | success => exact .inl ⟨.success, rfl, iff_of_true rfl rfl, .inl rfl⟩
  | failure => exact .inl ⟨.failure, rfl, iff_of_false nofun nofun, .inr rfl⟩

theorem teardown_callsPort (f : Answer) (hh : s.h = true) : CallsPort s (teardown f s) := by
  cases f with
  | success => exact .inr ⟨.success, rfl, hh, iff_of_true rfl rfl⟩
  | failure => exact .inr ⟨.failure, rfl, hh, iff_of_false (by simp [teardown_failure, hh]) nofun⟩

theorem exec_portLog_of_no_call (h : exec i s = .next t) (hconstruct : ∀ f c, i ≠ .construct f c)
    (harm : ∀ f, i ≠ .arm f) (hdestroy : ∀ f, i ≠ .destroy f) : t.portLog = s.portLog := by
  cases i with
  | matchEntry e x => cases h; rfl
  | classify x => cases h; rfl
  | decodeFrame b => obtain ⟨-, o, -, rfl⟩ := execDecodeFrame_next h; rfl
  | decodeRepeat b => obtain ⟨-, o, -, rfl⟩ := execDecodeRepeat_next h; rfl
  | construct f c => exact absurd rfl (hconstruct f c)
  | process =>
    obtain ⟨-, s', hr, rfl⟩ | ⟨-, rfl⟩ := execProcess_next h
    · rw [routeBatch_frame hr]
      rfl
    · rfl
  | arm f => exact absurd rfl (harm f)
  | destroy f => exact absurd rfl (hdestroy f)
  | notify b =>
    obtain ⟨-, ⟨-, -, rfl⟩ | ⟨-, rfl⟩⟩ := execNotify_next h
    · rw [deliver_eq]
    · rfl
  | take => obtain ⟨-, -, rfl⟩ | ⟨-, rfl⟩ := execTake_next h <;> rfl

/-- An operation makes one call, or none. -/
theorem exec_callsPort (h : exec i s = .next t) : t.portLog = s.portLog ∨ CallsPort s t := by
  cases i with
  | construct f c =>
    obtain ⟨-, rfl⟩ := execConstruct_next h
    exact .inr (construct_callsPort f c s)
  | arm f =>
    obtain ⟨-, rfl⟩ | ⟨-, rfl⟩ := execArm_next h
    · exact .inr (rearm_callsPort f s)
    · exact .inl rfl
  | destroy f =>
    obtain ⟨-, -, ⟨hh, rfl⟩ | ⟨-, rfl⟩⟩ := execDestroy_next h
    · exact .inr (teardown_callsPort f hh)
    · exact .inl rfl
  | _ => exact .inl (exec_portLog_of_no_call h nofun nofun nofun)

/-- Settles O54: the three operations that call the port, each with what it presents, and no other. -/
theorem portCallsPresentConfig : Obligations.PortCallsPresentConfig := by
  refine ⟨fun f c s hls => ?construct, fun f s hls => ?arm, fun f s hls => ?destroy,
    fun i s t => exec_portLog_of_no_call, fun s t h => ?step⟩
  case construct =>
    exact ⟨_, execConstruct_of_unbuilt f c hls, construct_cfg f c s, construct_portLog f c s⟩
  case arm => exact ⟨_, execArm_of_rearmPending f hls, rearm_portLog f s.cfg s⟩
  case destroy =>
    refine ⟨_, execDestroy_of_accepted f (destroyAccepted_iff_running.2 hls), ?_⟩
    cases s.h with
    | true => exact teardown_portLog f s
    | false => rfl
  case step =>
    obtain ⟨io, rfl | ⟨i, -, he⟩⟩ := step_next_exec h
    · exact .inl rfl
    · exact exec_callsPort (s := { s with io := io }) he

end Sys2Proof.Machine
end

section
/-! NOTIFY and TAKE where they are enabled: what RS and WB hold after, and the frame (43_symbol_relay.md R171 to R173). -/

namespace Sys2Proof.Machine

variable {s t : State} {b : List Symbol}

/-! ### NOTIFY -/

theorem execNotify_of_enabled (hfit : batchFits s.params.maxSymbols b.length = true) (hcb : s.cb = true)
    (hpa : s.pa = true) : execNotify b s = .next (deliver (operandBatch b) s) := by
  rw [execNotify, withBatch_fits _ hfit, if_pos (notifyEnabled_iff.2 ⟨hcb, hpa⟩)]

theorem registers_deliver (b : Batch) (hpa : s.pa = true) :
    registers (deliver b s) =
      { registers s with
        rs := (deliver b s).rs
        pa := !s.params.oneShot
        tr := if s.rs.full then s.tr ++ [.overwrite] else s.tr } := by
  rw [deliver_eq, hpa, Bool.true_and]
  rfl

/-- Settles O30: NOTIFY is enabled, so it delivers its operand. -/
theorem notifyFillsTheRelay : Obligations.NotifyFillsTheRelay := by
  intro b s hfit hcb hpa
  refine ⟨deliver (operandBatch b) s, execNotify_of_enabled hfit hcb hpa, deliver_full _ s, ?count,
    fun k hk => deliver_slot _ s hk, registers_deliver _ hpa⟩
  case count => rw [deliver_count, (operandBatch_count hfit).1]

/-! ### TAKE -/

theorem execTake_of_enabled (hls : s.ls = .wait) (hfull : s.rs.full = true) :
    execTake s = .next (takeBatch s.rs.batch s) := by
  rw [execTake, if_pos (takeEnabled_iff.2 ⟨hls, hfull⟩), readRelay_ok hfull]

/-- The slots TAKE does not write (log 15). -/
theorem takeBatch_slot_of_count_le {b : Batch} {k : Nat} (s : State) (hlen : b.count.toNat ≤ b.sym.length)
    (hk : b.count.toNat ≤ k) : (takeBatch b s).wb.sym[k]? = s.wb.sym[k]? := by
  have hpre : (b.sym.take b.count.toNat).length = b.count.toNat := List.length_take_of_le hlen
  calc (takeBatch b s).wb.sym[k]?
    _ = (s.wb.sym.drop b.count.toNat)[k - b.count.toNat]? := by
      rw [takeBatch_eq, List.getElem?_append_right (hpre.trans_le hk), hpre]
    _ = s.wb.sym[k]? := by rw [List.getElem?_drop, Nat.add_sub_cancel' hk]

/-- Settles O31: TAKE is enabled, so it takes the batch in RS, whose slots below its count exist. -/
theorem takeMovesTheBatch : Obligations.TakeMovesTheBatch := by
  intro s hls hfull hlen
  refine ⟨takeBatch s.rs.batch s, execTake_of_enabled hls hfull, rfl, fun k hk => ?slot, rfl⟩
  case slot =>
    have hx : s.rs.batch.sym[k]? = some (s.rs.batch.sym[k]'(hk.trans_le hlen)) := List.getElem?_eq_getElem _
    rw [takeBatch_slot s hk hx, hx]

/-- Settles O32: TAKE either takes the batch in RS or waits, and a wait changes nothing. -/
theorem takeLeavesHigherSlots : Obligations.TakeLeavesHigherSlots := by
  intro s t k h hlen hk
  obtain ⟨-, -, rfl⟩ | ⟨-, rfl⟩ := execTake_next h
  · exact takeBatch_slot_of_count_le s hlen hk
  · rfl

end Sys2Proof.Machine
end

section
/-! A batch that is dropped, and the peripheral faults: what a fault changes, and that the core only stops from FAULTED
(60_exceptions.md R202, R204, R205). -/

namespace Sys2Proof.Machine

variable {s t : State} {i : Instr}

/-! ### A dropped batch -/

/-- Settles O26: both routes that publish append an event, so the batch took the third, which only records its drop. -/
theorem droppedBatchIsAbsorbed : Obligations.DroppedBatchIsAbsorbed := by
  intro s t hls h heh
  obtain ⟨-, s', hr, rfl⟩ | ⟨hne, -⟩ := execProcess_next h
  case inr => exact absurd hls hne
  obtain ⟨fr, -, -, rfl⟩ | ⟨-, -, -, rfl⟩ | ⟨d, hframe, hrepeat, rfl⟩ := routeBatch_cases hr
  · simp [finishProcess_eq] at heh
  · simp [finishProcess_eq] at heh
  · exact ⟨rfl, d, hframe, hrepeat, rfl⟩

/-! ### Faults -/

/-- Settles O29: the bits of FM after raiseFault are those of setFaultBit. -/
theorem faultEntry : Obligations.FaultEntry := by
  intro k s
  refine ⟨fun i hi => ?_, rfl⟩
  rw [raiseFault_fm, setFaultBit_getLsbD k s.fm i hi]
  cases k <;> rfl

/-- In FAULTED an operation waits, records a query, delivers into RS, or is a DESTROY. -/
theorem exec_next_of_faulted (hls : s.ls = .faulted) (h : exec i s = .next t) :
    t = s ∨ (∃ q, t = trace (.query q) s) ∨ (∃ b, t = deliver b s) ∨ (∃ f, t = teardown f s) ∨ t = abandon s := by
  have hne {l : LoopState} {P : Prop} (h : s.ls = l) (hl : .faulted ≠ l) : P := absurd (hls.symm.trans h) hl
  obtain hwait | hquery | ⟨f, c, hls', -⟩ | ⟨hls', -⟩ | ⟨f, hls', -⟩ | ⟨f, -, -, -, ht⟩ | ⟨-, -, -, ht⟩ |
    ⟨b, -, -, -, -, ht⟩ | ⟨hls', -, -⟩ := exec_next h
  · exact .inl hwait
  · exact .inr (.inl hquery)
  · exact hne hls' nofun
  · exact hne hls' nofun
  · exact hne hls' nofun
  · exact .inr (.inr (.inr (.inl ⟨f, ht⟩)))
  · exact .inr (.inr (.inr (.inr ht)))
  · exact .inr (.inr (.inl ⟨_, ht⟩))
  · exact hne hls' nofun

/-- Settles O49: of what is left to do in FAULTED only a DESTROY moves LS, and WB is discarded only where it stops. -/
theorem faultedHaltsTheWorker : Obligations.FaultedHaltsTheWorker := by
  intro s t hls h
  obtain ⟨io, rfl | ⟨i, -, he⟩⟩ := step_next_exec h
  · exact ⟨.inl hls, rfl, rfl, rfl, fun _ => rfl⟩
  · obtain rfl | ⟨q, rfl⟩ | ⟨b, rfl⟩ | ⟨f, rfl⟩ | rfl := exec_next_of_faulted (s := { s with io := io }) hls he
    · exact ⟨.inl hls, rfl, rfl, rfl, fun _ => rfl⟩
    · exact ⟨.inl hls, rfl, rfl, rfl, fun _ => rfl⟩
    · rw [deliver_eq]
      exact ⟨.inl hls, rfl, rfl, rfl, fun _ => rfl⟩
    · cases f with
      | success => exact ⟨.inr rfl, rfl, rfl, rfl, nofun⟩
      | failure => exact ⟨.inl rfl, rfl, rfl, rfl, fun _ => rfl⟩
    · exact ⟨.inr rfl, rfl, rfl, rfl, nofun⟩

end Sys2Proof.Machine
end

section
/-! What a turn of each context may write (60_exceptions.md R210; log 18): a step on an agent's turn runs an operation of
that agent, if it runs one. -/

namespace Sys2Proof.Machine

variable {s t : State} {i : Instr}

theorem step_next_of_turn {a : Agent} {ts : List Agent} (hts : s.io.turns = a :: ts) (h : step s = .next t) :
    ∃ io, t = { s with io := io } ∨ ∃ i, agentOf i = a ∧ exec i { s with io := io } = .next t := by
  obtain rfl | rfl | ⟨a', ts', i, rest, hts', -, ha, -, he⟩ := step_next h
  · exact ⟨t.io, .inl rfl⟩
  · exact ⟨(passTurn s).io, .inl rfl⟩
  · obtain ⟨rfl, -⟩ := List.cons.inj (hts.symm.trans hts')
    exact ⟨(consume a rest s).io, .inr ⟨i, ha, he⟩⟩

/-! ### The operations of each agent -/

theorem exec_capture_frame (ha : agentOf i = .capture) (h : exec i s = .next t) :
    registers t = { registers s with rs := t.rs, pa := t.pa, tr := t.tr } := by
  obtain ⟨b, rfl⟩ := agentOf_eq_capture_iff.1 ha
  obtain ⟨-, ⟨-, -, rfl⟩ | ⟨-, rfl⟩⟩ := execNotify_next h
  · rw [deliver_eq]
    rfl
  · rfl

theorem exec_worker_frame (ha : agentOf i = .worker) (h : exec i s = .next t) :
    t.h = s.h ∧ t.cb = s.cb ∧ t.cfg = s.cfg ∧ t.rs.batch = s.rs.batch ∧ (t.rs.full = true → s.rs.full = true) := by
  obtain rfl | rfl | ⟨f, rfl⟩ := agentOf_eq_worker_iff.1 ha
  case inl =>
    obtain ⟨-, -, rfl⟩ | ⟨-, rfl⟩ := execTake_next h
    · exact ⟨rfl, rfl, rfl, rfl, nofun⟩
    · exact ⟨rfl, rfl, rfl, rfl, id⟩
  case inr.inl =>
    obtain ⟨-, s', hr, rfl⟩ | ⟨-, rfl⟩ := execProcess_next h
    · rw [routeBatch_frame hr]
      exact ⟨rfl, rfl, rfl, rfl, id⟩
    · exact ⟨rfl, rfl, rfl, rfl, id⟩
  case inr.inr =>
    obtain ⟨-, rfl⟩ | ⟨-, rfl⟩ := execArm_next h
    · cases f <;> exact ⟨rfl, rfl, rfl, rfl, id⟩
    · exact ⟨rfl, rfl, rfl, rfl, id⟩

/-- HOST queries, constructs or destroys. -/
theorem exec_host_next (ha : agentOf i = .host) (h : exec i s = .next t) :
    (∃ q, t = trace (.query q) s) ∨ (∃ f c, t = construct f c s) ∨ (∃ f, t = teardown f s) ∨ t = abandon s := by
  obtain ⟨e, x, rfl⟩ | ⟨x, rfl⟩ | ⟨b, rfl⟩ | ⟨b, rfl⟩ | ⟨f, c, rfl⟩ | ⟨f, rfl⟩ := agentOf_eq_host_iff.1 ha
  · cases h; exact .inl ⟨_, rfl⟩
  · cases h; exact .inl ⟨_, rfl⟩
  · obtain ⟨-, o, -, ht⟩ := execDecodeFrame_next h
    exact .inl ⟨_, ht⟩
  · obtain ⟨-, o, -, ht⟩ := execDecodeRepeat_next h
    exact .inl ⟨_, ht⟩
  · exact .inr (.inl ⟨f, c, (execConstruct_next h).2⟩)
  · obtain ⟨-, -, ⟨-, ht⟩ | ⟨-, ht⟩⟩ := execDestroy_next h
    · exact .inr (.inr (.inl ⟨f, ht⟩))
    · exact .inr (.inr (.inr ht))

theorem exec_host_frame (ha : agentOf i = .host) (h : exec i s = .next t) :
    t.eh = s.eh ∧ t.lf.address = s.lf.address ∧ t.lf.command = s.lf.command ∧ t.rs.batch = s.rs.batch := by
  obtain ⟨q, rfl⟩ | ⟨f, c, rfl⟩ | ⟨f, rfl⟩ | rfl := exec_host_next ha h
  · exact ⟨rfl, rfl, rfl, rfl⟩
  · cases f <;> exact ⟨rfl, rfl, rfl, rfl⟩
  · cases f <;> exact ⟨rfl, rfl, rfl, rfl⟩
  · exact ⟨rfl, rfl, rfl, rfl⟩

/-- Settles O53: a turn that runs nothing changes the schedule only, and SINK has no operation to run. -/
theorem contextsAreIsolated : Obligations.ContextsAreIsolated := by
  intro s t ts h
  refine ⟨fun hts => ?capture, fun hts => ?worker, fun hts => ?host, fun hts => ?sink⟩ <;>
    obtain ⟨io, rfl | ⟨i, ha, he⟩⟩ := step_next_of_turn hts h
  case capture.inl => rfl
  case capture.inr => exact exec_capture_frame (s := { s with io := io }) ha he
  case worker.inl => exact ⟨rfl, rfl, rfl, rfl, id⟩
  case worker.inr => exact exec_worker_frame (s := { s with io := io }) ha he
  case host.inl => exact ⟨rfl, rfl, rfl, rfl⟩
  case host.inr => exact exec_host_frame (s := { s with io := io }) ha he
  case sink.inl => rfl
  case sink.inr => exact absurd ha (agentOf_ne_sink i)

end Sys2Proof.Machine
end

section
/-! The hazard of a delivery into RS while a batch is being processed: PROCESS neither reads nor writes RS
(70_reset_and_hazards.md R239). -/

namespace Sys2Proof.Machine

theorem processFrame_with_rs (b : Batch) (s : State) (r : RelaySlot) :
    processFrame b { s with rs := r } = (processFrame b s).map ({ · with rs := r }) := by
  unfold processFrame
  dsimp only
  cases decodeFrame s.params b with
  | error f => rfl
  | ok o => cases o <;> rfl

theorem publishRepeat_with_rs (s : State) (r : RelaySlot) :
    publishRepeat { s with rs := r } = (publishRepeat s).map ({ · with rs := r }) := by
  unfold publishRepeat readLast
  dsimp only
  cases s.lf.valid <;> rfl

theorem processRepeat_with_rs (b : Batch) (s : State) (r : RelaySlot) :
    processRepeat b { s with rs := r } = (processRepeat b s).map ({ · with rs := r }) := by
  unfold processRepeat
  rw [publishRepeat_with_rs]
  dsimp only
  cases decodeRepeat s.params b with
  | error f => rfl
  | ok o =>
    cases o with
    | isRepeat => cases s.lf.valid <;> rfl
    | invalid reason => rfl

/-- The route of a batch commutes with replacing RS. -/
theorem routeBatch_with_rs (b : Batch) (s : State) (r : RelaySlot) :
    routeBatch b { s with rs := r } = (routeBatch b s).map ({ · with rs := r }) := by
  unfold routeBatch
  split_ifs
  · exact processFrame_with_rs b s r
  · exact processRepeat_with_rs b s r
  · rfl

/-- Settles O35: the batch comes from WB, its route commutes with replacing RS, and so does the end of PROCESS. -/
theorem processIgnoresTheRelay : Obligations.ProcessIgnoresTheRelay := by
  intro s t r h
  obtain ⟨hls, s', hr, rfl⟩ | ⟨hls, rfl⟩ := execProcess_next h
  · have hroute : routeBatch s.wb { s with rs := r } = .ok { s' with rs := r } := by
      rw [routeBatch_with_rs, hr]
      rfl
    exact execProcess_of_routeBatch (s := { s with rs := r }) hls hroute
  · exact execProcess_waits (s := { t with rs := r }) (Bool.eq_false_iff.2 (mt processEnabled_iff.1 hls))

end Sys2Proof.Machine
end

section
/-! Power-on reset: the values the spec gives, and the invariant of a run (70_reset_and_hazards.md R230). -/

namespace Sys2Proof.Machine

theorem atReset_sym_length : Batch.atReset.sym.length = Config.defaults.maxSymbols := List.length_replicate

/-- The fill of a buffer at reset is symbols of DUR_W bits (log 5). -/
theorem symbolFits_of_mem_atReset {x : Symbol} (h : x ∈ Batch.atReset.sym) :
    symbolFits Config.defaults.durW x = true := by
  rw [List.eq_of_mem_replicate h]
  rfl

/-- Settles O40: each value is the one that the reset state lists. -/
theorem resetValues : Obligations.ResetValues :=
  ⟨rfl, rfl, rfl, rfl, rfl, rfl, rfl, rfl, rfl, rfl, rfl, rfl, rfl, rfl⟩

/-- Settles O41: the buffers have their slots, no handle, batch or frame exists, and LS = UNBUILT is no state of the
loop. -/
theorem invariantAtReset : Obligations.InvariantAtReset where
  buffers :=
    { relaySlots := atReset_sym_length
      workSlots := atReset_sym_length
      relayCount := nofun
      relayDurations := fun _ => symbolFits_of_mem_atReset
      workDurations := fun _ => symbolFits_of_mem_atReset
      workCount := nofun }
  lifecycle :=
    { handleCallback := rfl
      armedCallback := nofun
      loopBuilt := nofun
      closed := fun _ => ⟨rfl, rfl⟩
      faultRecorded := nofun }
  arming :=
    { notStarved := nofun
      windowEnded := fun _ => nofun
      ownedAlone := fun _ h => h.elim nofun nofun }
  history :=
    { freshInvalid := fun _ => rfl
      noFrameNoEvent := fun _ => rfl
      lastEvent := nofun }

end Sys2Proof.Machine
end
